-- ==== Sys2Proof/Word.lean ====
section
/-! DEFINITION. The words of MGC: bytes of the framebuffer and of the font bitmaps, 16-bit command words, 32-bit response values (spec rules R5, R8, R70, R80). -/

namespace Sys2Proof

/-- A byte: 8 bits; `v.getLsbD k` is the bit of weight `2^k` (R8). -/
abbrev Byte := BitVec 8

/-- A word of the command port and of every control register but ALLOC: 16 bits (R24 to R26, R70). -/
abbrev Word := BitVec 16

/-- The VALUE field of a response: 32 bits, two's complement (R5, R80). -/
abbrev ValueWord := BitVec 32

/-- A pixel coordinate pair (x, y): exact integers, possibly negative or out of range (R6). -/
abbrev Pixel := Int × Int

end Sys2Proof
end

