-- ==== Sys2Proof/Syntax.lean ====
section
/-! DEFINITION. The commands of MGC (R76, one constructor per row of the opcode table), their modes, classes and formats (R73 to R75), and the packets that carry them (R70). -/

namespace Sys2Proof

/-- The compositing mode (R75). -/
inductive Mode where
  | set | or | and | xor | not
deriving DecidableEq, Repr

/-- The mnemonics of the opcode map (R76). -/
inductive Mnemonic where
  | init | clear | getpixel | setpixel | setclip | clrclip
  | hline | vline | rect | fillrect | line | circle | fillcircle
  | setfont | glyph | string | display
deriving DecidableEq, Repr

/-- The class of a command: which of V and M it uses (R74). -/
inductive CommandClass where
  | vm | m | none
deriving DecidableEq, Repr

/-- The format of a command: how many operand words follow the header word (R73). -/
inductive Format where
  | f0 | f1 | f2 | f3 | f4 | fs
deriving DecidableEq, Repr

/-- The abstract commands (R76).
An operand is the 16-bit word that carries it; the meaning converts it by `sext16` or `zext16` (R72).
`v` is the requested pixel value and `m` the compositing mode (R74). -/
inductive Instr where
  /-- INIT w, h (R108). -/
  | init (w h : Word)
  /-- CLEAR (R107). -/
  | clear
  /-- GETPIXEL x, y (R105). -/
  | getpixel (x y : Word)
  /-- SETPIXEL x, y, V, M (R106). -/
  | setpixel (x y : Word) (v : Bool) (m : Mode)
  /-- SETCLIP x, y, w, h (R132). -/
  | setclip (x y w h : Word)
  /-- CLRCLIP (R133). -/
  | clrclip
  /-- HLINE x, y, w, V, M (R140). -/
  | hline (x y w : Word) (v : Bool) (m : Mode)
  /-- VLINE x, y, h, V, M (R141). -/
  | vline (x y h : Word) (v : Bool) (m : Mode)
  /-- RECT x, y, w, h, V, M (R142). -/
  | rect (x y w h : Word) (v : Bool) (m : Mode)
  /-- FILLRECT x, y, w, h, V, M (R143). -/
  | fillrect (x y w h : Word) (v : Bool) (m : Mode)
  /-- LINE x0, y0, x1, y1, V, M (R145). -/
  | line (x0 y0 x1 y1 : Word) (v : Bool) (m : Mode)
  /-- CIRCLE cx, cy, r, V, M (R172). -/
  | circle (cx cy r : Word) (v : Bool) (m : Mode)
  /-- FILLCIRCLE cx, cy, r, V, M (R174). -/
  | fillcircle (cx cy r : Word) (v : Bool) (m : Mode)
  /-- SETFONT idx (R193). -/
  | setfont (idx : Word)
  /-- GLYPH x, y, ch, M (R194). -/
  | glyph (x y ch : Word) (m : Mode)
  /-- STRING x, y, n, ch[0..n-1], M (R195); the count n is the length of `chs` (R81). -/
  | string (x y : Word) (chs : List Word) (m : Mode)
  /-- DISPLAY (R220). -/
  | display
deriving DecidableEq, Repr

/-- The mnemonic of a command. -/
def Instr.mnemonic : Instr → Mnemonic
  | .init .. => .init
  | .clear => .clear
  | .getpixel .. => .getpixel
  | .setpixel .. => .setpixel
  | .setclip .. => .setclip
  | .clrclip => .clrclip
  | .hline .. => .hline
  | .vline .. => .vline
  | .rect .. => .rect
  | .fillrect .. => .fillrect
  | .line .. => .line
  | .circle .. => .circle
  | .fillcircle .. => .fillcircle
  | .setfont .. => .setfont
  | .glyph .. => .glyph
  | .string .. => .string
  | .display => .display

/-- A packet (R70): a finite sequence of 16-bit words framed by the port, at least one word long.
Word 0 is `header`; words 1 and up are `operands`. -/
structure Packet where
  header   : Word
  operands : List Word
deriving DecidableEq, Repr

/-- L, the framed length of the packet in words (R77). -/
def Packet.length (p : Packet) : Nat := 1 + p.operands.length

end Sys2Proof
end

