-- ==== Sys2Proof/WellFormed.lean ====
section
/-! DEFINITION. Which commands the encoding can carry (R72, R73). Every operand is a 16-bit word and V and M have types of their own, so one check is left: the count of a STRING is itself an operand word. -/

namespace Sys2Proof

/-- Well-formedness of a command: the count n of a STRING lies in 0..65535 (R72, R73). -/
def Instr.wellFormed : Instr → Bool
  | .string _ _ chs _ => decide (chs.length ≤ 65535)
  | .init .. | .clear | .getpixel .. | .setpixel .. | .setclip .. | .clrclip
  | .hline .. | .vline .. | .rect .. | .fillrect .. | .line .. | .circle .. | .fillcircle ..
  | .setfont .. | .glyph .. | .display => true

end Sys2Proof
end

