-- ==== Sys2Proof/Decode.lean ====
section
/-! DEFINITION. Packets and commands: the opcode map (R76), the decoder (R79), total on every packet and rejecting by name (R78), the encoder written from the same tables, and the host's view of a packet as one number. -/

namespace Sys2Proof

/-! ## The opcode map (R76) -/

/-- The mnemonics in the order of the opcode map. -/
def Mnemonic.all : List Mnemonic :=
  [.init, .clear, .getpixel, .setpixel, .setclip, .clrclip, .hline, .vline, .rect, .fillrect,
   .line, .circle, .fillcircle, .setfont, .glyph, .string, .display]

/-- Column OPC of R76. -/
def Mnemonic.opcode : Mnemonic → Byte
  | .init => 0x01
  | .clear => 0x02
  | .getpixel => 0x03
  | .setpixel => 0x04
  | .setclip => 0x08
  | .clrclip => 0x09
  | .hline => 0x10
  | .vline => 0x11
  | .rect => 0x12
  | .fillrect => 0x13
  | .line => 0x14
  | .circle => 0x15
  | .fillcircle => 0x16
  | .setfont => 0x20
  | .glyph => 0x21
  | .string => 0x22
  | .display => 0x30

/-- Column "class" of R76 (R74). -/
def Mnemonic.commandClass : Mnemonic → CommandClass
  | .init | .clear | .getpixel | .setclip | .clrclip | .setfont | .display => .none
  | .setpixel | .hline | .vline | .rect | .fillrect | .line | .circle | .fillcircle => .vm
  | .glyph | .string => .m

/-- Column "format" of R76 (R73). -/
def Mnemonic.format : Mnemonic → Format
  | .clear | .clrclip | .display => .f0
  | .setfont => .f1
  | .init | .getpixel | .setpixel => .f2
  | .hline | .vline | .circle | .fillcircle | .glyph => .f3
  | .setclip | .rect | .fillrect | .line => .f4
  | .string => .fs

/-- The row of the opcode map that an OPC value selects, if any (R79 step 2). -/
def mnemonicOf (opc : Byte) : Option Mnemonic :=
  Mnemonic.all.find? fun k => k.opcode == opc

/-- The number of operand words a format takes; for FS it depends on word 3, here `n` (R73). -/
def Format.operandWords (f : Format) (n : Nat) : Nat :=
  match f with
  | .f0 => 0
  | .f1 => 1
  | .f2 => 2
  | .f3 => 3
  | .f4 => 4
  | .fs => 3 + n

/-! ## The header word (R71) -/

/-- OPC, bits 15:8. -/
def opcField (h : Word) : Byte := h.extractLsb' 8 8

/-- RSV, bits 7:4. -/
def rsvField (h : Word) : BitVec 4 := h.extractLsb' 4 4

/-- V, bit 3. -/
def vField (h : Word) : Bool := h.getLsbD 3

/-- M, bits 2:0. -/
def mField (h : Word) : BitVec 3 := h.extractLsb' 0 3

/-- The header word with the given fields and RSV = 0. -/
def headerWord (opc : Byte) (v : Bool) (m : BitVec 3) : Word :=
  opc ++ 0#4 ++ BitVec.ofBool v ++ m

/-- The number of a mode (R75). -/
def Mode.bits : Mode → BitVec 3
  | .set => 0
  | .or => 1
  | .and => 2
  | .xor => 3
  | .not => 4

/-- The mode with a number; 5, 6 and 7 are reserved (R75). -/
def modeOf (m : BitVec 3) : Option Mode :=
  match m.toNat with
  | 0 => some .set
  | 1 => some .or
  | 2 => some .and
  | 3 => some .xor
  | 4 => some .not
  | _ => none

/-! ## Decoding (R79) -/

/-- Why a packet is illegal: the six cases of R78, under names of the model.
All six are answered alike, with status ERR_ILLEGAL (R233). -/
inductive DecodeError where
  /-- (a) OPC is not one of the 17 values of R76. -/
  | unassignedOpcode
  /-- (b) RSV is not 0. -/
  | reservedBitsSet
  /-- (c) class none with V or M not 0. -/
  | unusedFieldSet
  /-- (d) class m with V not 0. -/
  | valueBitSet
  /-- (e) class vm or m with M at least 5. -/
  | reservedMode
  /-- (f) the length check of R77 fails. -/
  | wrongLength
deriving DecidableEq, Repr

/-- M against the reserved numbers (R78 (e)). -/
def checkMode (m : BitVec 3) : Except DecodeError Mode :=
  match modeOf m with
  | some k => .ok k
  | none => .error .reservedMode

/-- V and M against the class of the command (R78 (c) to (e)); the mode the command carries.
A command of class none carries none, and SET (number 0) stands in its place. -/
def checkFields (c : CommandClass) (v : Bool) (m : BitVec 3) : Except DecodeError Mode :=
  match c with
  | .none => if v = false ∧ m = 0 then .ok .set else .error .unusedFieldSet
  | .m => if v = false then checkMode m else .error .valueBitSet
  | .vm => checkMode m

/-! The formats (R73): a command from its operand words, in the order of R76;
none where their number is not that of the format (R77). -/

def formatF0 (i : Instr) : List Word → Option Instr
  | [] => some i
  | _ => none

def formatF1 (f : Word → Instr) : List Word → Option Instr
  | [a] => some (f a)
  | _ => none

def formatF2 (f : Word → Word → Instr) : List Word → Option Instr
  | [a, b] => some (f a b)
  | _ => none

def formatF3 (f : Word → Word → Word → Instr) : List Word → Option Instr
  | [a, b, c] => some (f a b c)
  | _ => none

def formatF4 (f : Word → Word → Word → Word → Instr) : List Word → Option Instr
  | [a, b, c, d] => some (f a b c d)
  | _ => none

/-- Format FS: word 3 is the number of the words that follow it. -/
def formatFS (f : Word → Word → List Word → Instr) : List Word → Option Instr
  | a :: b :: n :: cs => if cs.length = n.toNat then some (f a b cs) else none
  | _ => none

/-- The command with a mnemonic, V, M and operand words (R76). -/
def assemble (k : Mnemonic) (v : Bool) (m : Mode) (ops : List Word) : Option Instr :=
  match k with
  | .init => formatF2 (fun w h => .init w h) ops
  | .clear => formatF0 .clear ops
  | .getpixel => formatF2 (fun x y => .getpixel x y) ops
  | .setpixel => formatF2 (fun x y => .setpixel x y v m) ops
  | .setclip => formatF4 (fun x y w h => .setclip x y w h) ops
  | .clrclip => formatF0 .clrclip ops
  | .hline => formatF3 (fun x y w => .hline x y w v m) ops
  | .vline => formatF3 (fun x y h => .vline x y h v m) ops
  | .rect => formatF4 (fun x y w h => .rect x y w h v m) ops
  | .fillrect => formatF4 (fun x y w h => .fillrect x y w h v m) ops
  | .line => formatF4 (fun x0 y0 x1 y1 => .line x0 y0 x1 y1 v m) ops
  | .circle => formatF3 (fun cx cy r => .circle cx cy r v m) ops
  | .fillcircle => formatF3 (fun cx cy r => .fillcircle cx cy r v m) ops
  | .setfont => formatF1 (fun idx => .setfont idx) ops
  | .glyph => formatF3 (fun x y ch => .glyph x y ch m) ops
  | .string => formatFS (fun x y chs => .string x y chs m) ops
  | .display => formatF0 .display ops

/-- The decoder, total on every packet (R79): opcode, reserved bits, V and M, length. -/
def decode (p : Packet) : Except DecodeError Instr :=
  match mnemonicOf (opcField p.header) with
  | none => .error .unassignedOpcode
  | some k =>
    if rsvField p.header = 0 then
      match checkFields k.commandClass (vField p.header) (mField p.header) with
      | .error e => .error e
      | .ok m =>
        match assemble k (vField p.header) m p.operands with
        | some i => .ok i
        | none => .error .wrongLength
    else .error .reservedBitsSet

/-! ## Encoding -/

/-- The V field of a command's header word; 0 where the class does not use it (R74). -/
def Instr.vBit : Instr → Bool
  | .setpixel _ _ v _ | .hline _ _ _ v _ | .vline _ _ _ v _ | .rect _ _ _ _ v _
  | .fillrect _ _ _ _ v _ | .line _ _ _ _ v _ | .circle _ _ _ v _ | .fillcircle _ _ _ v _ => v
  | .init .. | .clear | .getpixel .. | .setclip .. | .clrclip | .setfont .. | .glyph ..
  | .string .. | .display => false

/-- The mode in a command's header word; SET (number 0) where the class does not use it (R74). -/
def Instr.modeArg : Instr → Mode
  | .setpixel _ _ _ m | .hline _ _ _ _ m | .vline _ _ _ _ m | .rect _ _ _ _ _ m
  | .fillrect _ _ _ _ _ m | .line _ _ _ _ _ m | .circle _ _ _ _ m | .fillcircle _ _ _ _ m
  | .glyph _ _ _ m | .string _ _ _ m => m
  | .init .. | .clear | .getpixel .. | .setclip .. | .clrclip | .setfont .. | .display => .set

/-- The operand words of a command, word 1 first (R76). -/
def Instr.operandWords : Instr → List Word
  | .init w h => [w, h]
  | .clear | .clrclip | .display => []
  | .getpixel x y => [x, y]
  | .setpixel x y _ _ => [x, y]
  | .setclip x y w h => [x, y, w, h]
  | .hline x y w _ _ => [x, y, w]
  | .vline x y h _ _ => [x, y, h]
  | .rect x y w h _ _ => [x, y, w, h]
  | .fillrect x y w h _ _ => [x, y, w, h]
  | .line x0 y0 x1 y1 _ _ => [x0, y0, x1, y1]
  | .circle cx cy r _ _ => [cx, cy, r]
  | .fillcircle cx cy r _ _ => [cx, cy, r]
  | .setfont idx => [idx]
  | .glyph x y ch _ => [x, y, ch]
  | .string x y chs _ => x :: y :: BitVec.ofNat 16 chs.length :: chs

/-- The packet that carries a command (R71 to R76). -/
def encode (i : Instr) : Packet where
  header   := headerWord i.mnemonic.opcode i.vBit i.modeArg.bits
  operands := i.operandWords

/-! ## A packet as one number -/

/-- Word `k` of the number `w` of `nbits` bits; every bit above `nbits` is 0. -/
def tableWord (nbits w k : Nat) : Word :=
  BitVec.ofNat 16 ((w % 2 ^ nbits) / 2 ^ (16 * k))

/-- How many operand words the packet of the number `w` has: those its header word's format asks for (R73);
none under an unassigned opcode. -/
def tableOperandCount (nbits w : Nat) : Nat :=
  match mnemonicOf (opcField (tableWord nbits w 0)) with
  | some k => k.format.operandWords (tableWord nbits w 3).toNat
  | none => 0

/-- The packet whose bits are `w`, word 0 in bits 15:0, word 1 in bits 31:16 and so on (log 9). -/
def tablePacket (nbits w : Nat) : Packet where
  header   := tableWord nbits w 0
  operands := (List.range (tableOperandCount nbits w)).map fun k => tableWord nbits w (k + 1)

/-- The command the decoder reads from the packet whose bits are `w`; none where it refuses. -/
def decodeTableWord (nbits w : Nat) : Option Instr :=
  match decode (tablePacket nbits w) with
  | .ok i => some i
  | .error _ => none

end Sys2Proof
end

