-- ==== Sys2Proof/Machine/Operands.lean ====
section
/-! DEFINITION. The two operand forms of MGC (R72) and the ascending range of R7. There is no other addressing: every operand is an immediate of the packet (R20). -/

namespace Sys2Proof.Machine

/-- The value of a signed operand word or register: two's complement, -32768..32767 (R8, R72). -/
def sext16 (v : Word) : Int := v.toInt

/-- The value of an unsigned operand word or register: 0..65535 (R8, R72). -/
def zext16 (v : Word) : Nat := v.toNat

/-- The range `a..b`: a, a+1, ..., b; empty when b < a (R7). -/
def ascending (a b : Int) : List Int :=
  (List.range (b - a + 1).toNat).map fun (i : Nat) => a + (i : Int)

end Sys2Proof.Machine
end

