-- ==== Sys2Proof/Config.lean ====
section
/-! DEFINITION. The configuration record of MGC (R5): the open parameters HDR_VALUE, MEM_BYTES and FONTS, and the font tables' structure (R190). No value of it is fixed here but the two fixtures at the end. -/

namespace Sys2Proof

/-- A glyph record (R190).
The members are integers; the ranges R190 gives them are part of `Machine.fontWellFormed`. -/
structure Glyph where
  bitmapOffset : Nat
  width        : Nat
  height       : Nat
  xAdvance     : Nat
  xOffset      : Int
  yOffset      : Int
deriving DecidableEq, Repr

/-- A font table (R190): an immutable record of five members, with no byte-level layout. -/
structure Font where
  bitmap   : List Byte
  glyphs   : List Glyph
  first    : Nat
  last     : Nat
  yAdvance : Nat
deriving DecidableEq, Repr

/-- The configuration record (R5, R28): the same at every step of a run.
NFONTS is the length of `fonts`. -/
structure Config where
  /-- MEM_BYTES: the capacity of the framebuffer memory in bytes (D3). -/
  memBytes : Nat
  /-- HDR_VALUE: the device-framing value of the header byte (D9). -/
  hdrValue : Byte
  /-- FONTS[0..NFONTS-1]: the attached font tables (D19). -/
  fonts    : List Font
deriving DecidableEq, Repr

/-- HEADER_SIZE: the number of header bytes before the pixel bytes (R5). -/
def headerSize : Nat := 1

/-- NFONTS (R5). -/
def Config.nFonts (c : Config) : Nat := c.fonts.length

/-- The spec's own test font TF1 (95_test_vectors.md section 0.2). -/
def Font.tf1 : Font where
  bitmap   := [0x57#8, 0xDA#8, 0xD7#8, 0x5C#8]
  glyphs   :=
    [ { bitmapOffset := 0, width := 3, height := 5, xAdvance := 4, xOffset := 0, yOffset := -5 },
      { bitmapOffset := 2, width := 3, height := 5, xAdvance := 4, xOffset := 1, yOffset := -5 } ]
  first    := 0x41
  last     := 0x42
  yAdvance := 8

/-- CFG128 of 95_test_vectors.md section 0.1.
DESIGN CHOICE (log 2): the configuration that `Machine.State.reset` carries; every claim is stated for any configuration. -/
def Config.cfg128 : Config where
  memBytes := 1025
  hdrValue := 0x40#8
  fonts    := [Font.tf1]

end Sys2Proof
end

