-- ==== Sys2Proof/Machine/State.lean ====
section
/-! DEFINITION. The state of MGC (R23 to R32), the ports the host drives and reads (R70, R80, R221), the reasons a step can stop, and the state after reset (R260, R261). -/

namespace Sys2Proof.Machine

/-- The framebuffer memory FB (R27): the bytes that hold a value, as (index, byte) pairs with strictly rising indexes.
A byte that is not listed holds no value: its content is unspecified (R261, I3), and reading it is a fault of the model (log 10). -/
abbrev Memory := List Host.Cell

/-- The canonical form of FB: indexes strictly rising, so that equal memories are equal lists. -/
abbrev Memory.wf (m : Memory) : Prop := m.Pairwise fun c d => c.1 < d.1

/-- The status of a response (R230). -/
inductive Status where
  | ok | errAlloc | errIllegal | errState
deriving DecidableEq, Repr

/-- A response (R80): STATUS, whose 8-bit code is `Status.code`, and VALUE. -/
structure Response where
  status : Status
  value  : ValueWord
deriving DecidableEq, Repr

/-- What arrives from outside, one at a time and only when MGC is idle (R70, R223, R260):
a packet on the command port, or a reset (log 4). -/
inductive PortEvent where
  | packet (p : Packet)
  | reset
deriving DecidableEq, Repr

/-- The state.
`alloc` to `fb` are the state R32 lists.
`cfg` is the configuration, which no step changes (R28, log 1).
`port`, `responses` and `frames` are the model's own: what the host is yet to present (log 3),
and the record of what MGC has put out (R12, log 6). -/
structure State where
  /-- The configuration record (R5, R28). -/
  cfg       : Config
  /-- ALLOC (R23). -/
  alloc     : Bool
  /-- W (R24), an unsigned number of pixels. -/
  w         : Word
  /-- H (R24), an unsigned number of pixels. -/
  h         : Word
  /-- CLIP_X (R25), two's complement, as the next three. -/
  clipX     : Word
  /-- CLIP_Y (R25). -/
  clipY     : Word
  /-- CLIP_W (R25). -/
  clipW     : Word
  /-- CLIP_H (R25). -/
  clipH     : Word
  /-- FONT_SEL (R26): the index of the active font, or NONE = 0xFFFF. -/
  fontSel   : Word
  /-- FB (R27). -/
  fb        : Memory
  /-- The events still to come on the command port, the next one first. -/
  port      : List PortEvent
  /-- The responses given so far, oldest first. -/
  responses : List Response
  /-- The byte sequences handed to the transport so far, one per DISPLAY, oldest first (R221, log 17). -/
  frames    : List (List Byte)
deriving DecidableEq, Repr

/-- Reasons for which the model stops though MGC goes on.
None is reachable from reset: `State.Inv` (Safety.lean) excludes them all. -/
inductive Fault where
  /-- A read of a byte of FB that holds no value (R261, I3).
  Raised by the reads of GETPIXEL, DISPLAY and every pixel write; safe. -/
  | unspecifiedByte
  /-- An access to FB at an index outside 0..MEM_BYTES-1 (R27, R40).
  Raised by every access to FB; safe. -/
  | outsideMemory
  /-- FONT_SEL selects a table that is not attached, which R26 excludes.
  Raised by GLYPH and STRING; safe. -/
  | noSuchFont
deriving DecidableEq, Repr

/-- Reasons for which the model gives a command no meaning. -/
inductive Refusal where
  /-- The command has no meaning yet; raised by a refused arm of `exec` only; safe. -/
  | notModelled (mnemonic : String)
  /-- The active font table is not well formed (R191): its behaviour is specified by no source, and a model refuses such a configuration (I5).
  Raised by GLYPH and STRING; safe. -/
  | malformedFont
deriving DecidableEq, Repr

/-- NONE, the value of FONT_SEL when no font is active (R26). -/
def fontNone : Word := 0xFFFF

/-- The state after reset of an MGC with configuration `c` (R32, R260, R261): idle, nothing pending. -/
def State.resetWith (c : Config) : State where
  cfg       := c
  alloc     := false
  w         := 0
  h         := 0
  clipX     := 0
  clipY     := 0
  clipW     := 0
  clipH     := 0
  fontSel   := fontNone
  fb        := []
  port      := []
  responses := []
  frames    := []

/-- The state after reset.
DESIGN CHOICE (log 2): the configuration is the spec's CFG128. -/
def State.reset : State := State.resetWith Config.cfg128

end Sys2Proof.Machine
end

