-- ==== Sys2Proof/Machine/Ops.lean ====
section
/-! DEFINITION. The operations every command is made of: the framebuffer memory (R27, R41 to R48), the gates (R42, R131), the compositing mux (R100), pixel read and pixel write (R101, R102), responses and errors (R80, R231, R234), the transport port (R221). -/

namespace Sys2Proof.Machine

/-! ## Sequencing -/

/-- The result of an internal operation: a value, or the reason the model stops. -/
abbrev Result (α : Type) := Host.Outcome α Fault Refusal

/-- Run `r`, then `f` on its value; a fault or a refusal ends the command. -/
def andThen {α β : Type} (r : Result α) (f : α → Result β) : Result β :=
  match r with
  | .next a => f a
  | .fault e => .fault e
  | .refused e => .refused e

/-! ## FB as data -/

/-- The byte at an index; none where it holds no value. -/
def Memory.read : Memory → Nat → Option Byte
  | [], _ => none
  | (b, u) :: rest, a => if b = a then some u else Memory.read rest a

/-- Store a byte at an index, keeping the canonical form. -/
def Memory.write : Memory → Nat → Byte → Memory
  | [], a, v => [(a, v)]
  | (b, u) :: rest, a, v =>
    if a < b then (a, v) :: (b, u) :: rest
    else if a = b then (a, v) :: rest
    else (b, u) :: Memory.write rest a v

/-- Store `v` at the `n` indexes from `a` up: in one pass, what `n` writes do (`Memory.fill_eq_writes`). -/
def Memory.fill (m : Memory) (a n : Nat) (v : Byte) : Memory :=
  m.filter (fun c => c.1 < a) ++ (List.range' a n).map (fun b => (b, v))
    ++ m.filter (fun c => a + n ≤ c.1)

/-! ## Accesses to FB: one byte wide, never misaligned (R45, R46) -/

/-- MemRead(a, 1) (R9). -/
def memRead (a : Nat) (s : State) : Result Byte :=
  if a < s.cfg.memBytes then
    match s.fb.read a with
    | some b => .next b
    | none => .fault .unspecifiedByte
  else .fault .outsideMemory

/-- MemWrite(a, 1, v) (R9). -/
def memWrite (a : Nat) (v : Byte) (s : State) : Result State :=
  if a < s.cfg.memBytes then .next { s with fb := s.fb.write a v }
  else .fault .outsideMemory

/-- MemWrite(b, 1, v) for the `n` indexes b from `a` up (log 11). -/
def memFill (a n : Nat) (v : Byte) (s : State) : Result State :=
  if a + n ≤ s.cfg.memBytes then .next { s with fb := s.fb.fill a n v }
  else .fault .outsideMemory

/-- MemRead of the listed indexes, in their order. -/
def memReadAll : List Nat → State → Result (List Byte)
  | [], _ => .next []
  | a :: as, s =>
    andThen (memRead a s) fun b =>
    andThen (memReadAll as s) fun bs => .next (b :: bs)

/-! ## Geometry -/

/-- `ceil(h/8)` (R7). -/
def pagesOf (h : Nat) : Nat := (h + 7) / 8

/-- The storage bytes a w × h framebuffer takes: header and pixel bytes (R30). -/
def storageSize (w h : Nat) : Nat := headerSize + w * pagesOf h

/-- P, the pages (bytes) per column (R30). -/
def State.pages (s : State) : Nat := pagesOf s.h.toNat

/-- SIZE, the storage bytes in use (R30). -/
def State.size (s : State) : Nat := storageSize s.w.toNat s.h.toNat

/-- InBounds(x, y) (R42). -/
abbrev InBounds (s : State) (x y : Int) : Prop :=
  (0 ≤ x ∧ x < s.w.toNat) ∧ (0 ≤ y ∧ y < s.h.toNat)

/-- InClip(px, py): closed at both ends (R131). -/
abbrev InClip (s : State) (px py : Int) : Prop :=
  (sext16 s.clipX ≤ px ∧ px ≤ sext16 s.clipX + sext16 s.clipW) ∧
  (sext16 s.clipY ≤ py ∧ py ≤ sext16 s.clipY + sext16 s.clipH)

/-- Addr(x, y) (R43); meant for pixels in bounds only. -/
def addr (s : State) (x y : Int) : Nat :=
  x.toNat * s.pages + y.toNat / 8 + headerSize

/-- The bit of its byte that holds a pixel of row y (R44). -/
def rowBit (y : Int) : Nat := y.toNat % 8

/-- The byte a pixel write at (x, y) stores to; none where one of the two gates of R51 blocks it. -/
def storeAddr (s : State) (x y : Int) : Option Nat :=
  if InBounds s x y ∧ InClip s x y then some (addr s x y) else none

/-! ## Pixels -/

/-- `b` with bit `k` replaced by `n`, the other bits unchanged (R102). -/
def setBit (b : Byte) (k : Nat) (n : Bool) : Byte :=
  if n then b ||| BitVec.twoPow 8 k else b &&& ~~~(BitVec.twoPow 8 k)

/-- Merge(M, V, E), the compositing mux (R100). -/
def merge (m : Mode) (v e : Bool) : Bool :=
  match m with
  | .set => v
  | .or => v || e
  | .and => v && e
  | .xor => v ^^ e
  | .not => !v

/-- PixRead(x, y) (R101). -/
def pixRead (x y : Int) (s : State) : Result Bool :=
  if InBounds s x y then
    andThen (memRead (addr s x y) s) fun b => .next (b.getLsbD (rowBit y))
  else .next false

/-- PixWrite(x, y, V, M) (R102): the previous bit and the new state. -/
def pixWrite (x y : Int) (v : Bool) (m : Mode) (s : State) : Result (Bool × State) :=
  match storeAddr s x y with
  | none => .next (false, s)
  | some a =>
    andThen (memRead a s) fun b =>
    andThen (memWrite a (setBit b (rowBit y) (merge m v (b.getLsbD (rowBit y)))) s) fun t =>
    .next (b.getLsbD (rowBit y), t)

/-- One PixWrite for each pixel of a list, in its order, all with the same V and M; the previous bits are discarded (R55, log 20). -/
def plot : List Pixel → Bool → Mode → State → Result State
  | [], _, _, s => .next s
  | p :: ps, v, m, s => andThen (pixWrite p.1 p.2 v m s) fun r => plot ps v m r.2

/-! ## Registers -/

/-- Write the four clip registers (R132, R133). -/
def State.setClip (x y w h : Word) (s : State) : State :=
  { s with clipX := x, clipY := y, clipW := w, clipH := h }

/-- Write FONT_SEL (R193). -/
def State.setFontSel (f : Word) (s : State) : State := { s with fontSel := f }

/-- Write W and H and set ALLOC (R108). -/
def State.allocate (w h : Word) (s : State) : State := { s with w := w, h := h, alloc := true }

/-! ## Outputs and errors -/

/-- `respond(v)`: the command ends with status OK; the value leaves as a 32-bit two's complement word (R6, R9, R80). -/
def State.respond (v : Int) (s : State) : State :=
  { s with responses := s.responses ++ [{ status := .ok, value := BitVec.ofInt 32 v }] }

/-- `raise X`: the command ends with the error status X and no state change (R9, R231).
MGC has no trap entry and no trap return (R238): this is all that an error does. -/
def State.raise (e : Status) (s : State) : State :=
  { s with responses := s.responses ++ [{ status := e, value := 0 }] }

/-- The byte sequence of one DISPLAY on the transport port (R221). -/
def State.emitFrame (bs : List Byte) (s : State) : State := { s with frames := s.frames ++ [bs] }

/-- The number of a bit, as a response value. -/
def bitValue (b : Bool) : Int := if b then 1 else 0

/-- The state check of every command but INIT (R234 (b), (c)). -/
def whenAllocated (body : State → Result State) (s : State) : Result State :=
  if s.alloc then body s else .next (s.raise .errState)

/-- A drawing command (R10, R147): the state check, one PixWrite per pixel, response value 0. -/
def draw (ps : List Pixel) (v : Bool) (m : Mode) (s : State) : Result State :=
  whenAllocated (fun s => andThen (plot ps v m s) fun t => .next (t.respond 0)) s

end Sys2Proof.Machine
end

