-- ==== Sys2Proof/Machine/Lines.lean ====
section
/-! DEFINITION. The line and rectangle rasterizers: HLINE, VLINE, RECT, FILLRECT, LINE (42_lines_rects.md). Each is the list of pixels its pseudocode writes, in that order, and one `draw` of it. -/

namespace Sys2Proof.Machine

/-! ## The pixels -/

/-- The pixels of HLINE x, y, w (R140); none when w < 0 (R148). -/
def hlinePixels (x y w : Int) : List Pixel := (ascending 0 w).map fun i => (x + i, y)

/-- The pixels of VLINE x, y, h (R141); none when h < 0 (R148). -/
def vlinePixels (x y h : Int) : List Pixel := (ascending 0 h).map fun i => (x, y + i)

/-- The pixels of RECT x, y, w, h (R142): top, bottom, left, right. -/
def rectPixels (x y w h : Int) : List Pixel :=
  hlinePixels x y (w - 1) ++ hlinePixels x (y + h) w
    ++ vlinePixels x y (h - 1) ++ vlinePixels (x + w) y h

/-- The pixels of FILLRECT x, y, w, h (R143): scanlines top to bottom. -/
def fillrectPixels (x y w h : Int) : List Pixel :=
  (ascending 0 h).flatMap fun j => hlinePixels x (y + j) w

/-- The loop of LINE (R145); the Nat bounds the number of pixel writes (log 7). -/
def lineLoop (x1 y1 dx dy sx sy : Int) : Nat → Int → Int → Int → List Pixel
  | 0, _, _, _ => []
  | n + 1, x, y, err =>
    (x, y) ::
      if x = x1 ∧ y = y1 then []
      else
        lineLoop x1 y1 dx dy sx sy n
          (if dy ≤ 2 * err then x + sx else x)
          (if 2 * err ≤ dx then y + sy else y)
          (err + (if dy ≤ 2 * err then dy else 0) + (if 2 * err ≤ dx then dx else 0))

/-- n of R146 (b): one less than the number of pixel writes of LINE. -/
def lineSteps (x0 y0 x1 y1 : Int) : Nat := max (x1 - x0).natAbs (y1 - y0).natAbs

/-- The pixels of LINE x0, y0, x1, y1 (R145). -/
def linePixels (x0 y0 x1 y1 : Int) : List Pixel :=
  let dx : Int := (x1 - x0).natAbs
  let dy : Int := -((y1 - y0).natAbs : Int)
  lineLoop x1 y1 dx dy (if x0 < x1 then 1 else -1) (if y0 < y1 then 1 else -1)
    (lineSteps x0 y0 x1 y1 + 1) x0 y0 (dx + dy)

/-! ## The commands -/

/-- HLINE x, y, w, V, M (R140). -/
def execHline (x y w : Word) (v : Bool) (m : Mode) (s : State) : Result State :=
  draw (hlinePixels (sext16 x) (sext16 y) (sext16 w)) v m s

/-- VLINE x, y, h, V, M (R141). -/
def execVline (x y h : Word) (v : Bool) (m : Mode) (s : State) : Result State :=
  draw (vlinePixels (sext16 x) (sext16 y) (sext16 h)) v m s

/-- RECT x, y, w, h, V, M (R142). -/
def execRect (x y w h : Word) (v : Bool) (m : Mode) (s : State) : Result State :=
  draw (rectPixels (sext16 x) (sext16 y) (sext16 w) (sext16 h)) v m s

/-- FILLRECT x, y, w, h, V, M (R143). -/
def execFillrect (x y w h : Word) (v : Bool) (m : Mode) (s : State) : Result State :=
  draw (fillrectPixels (sext16 x) (sext16 y) (sext16 w) (sext16 h)) v m s

/-- LINE x0, y0, x1, y1, V, M (R145). -/
def execLine (x0 y0 x1 y1 : Word) (v : Bool) (m : Mode) (s : State) : Result State :=
  draw (linePixels (sext16 x0) (sext16 y0) (sext16 x1) (sext16 y1)) v m s

end Sys2Proof.Machine
end

