-- ==== Sys2Proof/Machine/Circles.lean ====
section
/-! DEFINITION. The midpoint circle rasterizer: CIRCLE, FILLCIRCLE (43_circles.md). Both run the same loop of passes and differ in what a pass writes. -/

namespace Sys2Proof.Machine

/-- The pixels of Plot8(cx, cy, x, y) (R170): coincident images are not removed. -/
def plot8 (cx cy x y : Int) : List Pixel :=
  [(cx + x, cy + y), (cx - x, cy + y), (cx + x, cy - y), (cx - x, cy - y),
   (cx + y, cy + x), (cx - y, cy + x), (cx + y, cy - x), (cx - y, cy - x)]

/-- The pixels of Chord4(cx, cy, x, y) (R173). -/
def chord4 (cx cy x y : Int) : List Pixel :=
  linePixels (cx - x) (cy + y) (cx + x) (cy + y) ++ linePixels (cx - x) (cy - y) (cx + x) (cy - y)
    ++ linePixels (cx - y) (cy + x) (cx + y) (cy + x) ++ linePixels (cx - y) (cy - x) (cx + y) (cy - x)

/-- The loop of CIRCLE and FILLCIRCLE (R172, R174): the (x, y) of its passes, two per iteration, the first before the midpoint decision and the second after it.
The Nat bounds the number of iterations (log 7). -/
def circleLoop : Nat → Int → Int → Int → List (Int × Int)
  | 0, _, _, _ => []
  | n + 1, x, y, d =>
    if x ≤ y then
      if d < 0 then (x, y) :: (x, y) :: circleLoop n (x + 1) y (d + 2 * x + 3)
      else (x, y) :: (x, y - 1) :: circleLoop n (x + 1) (y - 1) (d + 2 * (x - y) + 5)
    else []

/-- The passes for radius r; none when r < 0. -/
def circlePasses (r : Int) : List (Int × Int) := circleLoop (r + 1).toNat 0 r (1 - r)

/-- The pixels of CIRCLE cx, cy, r (R172). -/
def circlePixels (cx cy r : Int) : List Pixel :=
  (circlePasses r).flatMap fun p => plot8 cx cy p.1 p.2

/-- The pixels of FILLCIRCLE cx, cy, r (R174). -/
def fillcirclePixels (cx cy r : Int) : List Pixel :=
  (circlePasses r).flatMap fun p => chord4 cx cy p.1 p.2

/-- CIRCLE cx, cy, r, V, M (R172). -/
def execCircle (cx cy r : Word) (v : Bool) (m : Mode) (s : State) : Result State :=
  draw (circlePixels (sext16 cx) (sext16 cy) (sext16 r)) v m s

/-- FILLCIRCLE cx, cy, r, V, M (R174). -/
def execFillcircle (cx cy r : Word) (v : Bool) (m : Mode) (s : State) : Result State :=
  draw (fillcirclePixels (sext16 cx) (sext16 cy) (sext16 r)) v m s

end Sys2Proof.Machine
end

