-- ==== Sys2Proof/Machine/Clip.lean ====
section
/-! DEFINITION. The clip commands: SETCLIP, CLRCLIP (41_clip.md section 2). -/

namespace Sys2Proof.Machine

/-- SETCLIP x, y, w, h (R132): any four values are accepted. -/
def execSetclip (x y w h : Word) (s : State) : Result State :=
  whenAllocated (fun s => .next ((s.setClip x y w h).respond 0)) s

/-- CLRCLIP (R133): the default rectangle, the full framebuffer extent (R135). -/
def execClrclip (s : State) : Result State :=
  whenAllocated (fun s => .next ((s.setClip 0 0 s.w s.h).respond 0)) s

end Sys2Proof.Machine
end

