-- ==== Sys2Proof/Machine/Display.lean ====
section
/-! DEFINITION. The buffer read-out to the transport: DISPLAY (45_display.md). -/

namespace Sys2Proof.Machine

/-- DISPLAY (R220): FB[0..SIZE-1] in ascending index on the transport port. -/
def execDisplay (s : State) : Result State :=
  whenAllocated (fun s =>
    andThen (memReadAll (List.range s.size) s) fun bs => .next ((s.emitFrame bs).respond 0)) s

end Sys2Proof.Machine
end

