-- ==== Sys2Proof/Machine/Framebuffer.lean ====
section
/-! DEFINITION. The framebuffer commands: INIT, CLEAR, GETPIXEL, SETPIXEL (40_framebuffer.md section 3). -/

namespace Sys2Proof.Machine

/-- The size check of INIT w, h passes (R108, R232). -/
abbrev InitFits (w h : Word) (s : State) : Prop :=
  1 ≤ sext16 w ∧ 1 ≤ sext16 h ∧ storageSize w.toNat h.toNat ≤ s.cfg.memBytes

/-- INIT w, h (R108): the state check, the size check, then the storage, the header byte, the default clip.
Where the size check passes, w and h are positive and their words are their values. -/
def execInit (w h : Word) (s : State) : Result State :=
  if s.alloc then .next (s.raise .errState)
  else if InitFits w h s then
    andThen (memWrite 0 s.cfg.hdrValue s) fun t =>
    andThen (memFill headerSize (w.toNat * pagesOf h.toNat) 0 t) fun u =>
    .next (((u.allocate w h).setClip 0 0 w h).respond 0)
  else .next (s.raise .errAlloc)

/-- CLEAR (R107): every pixel byte to 0, whatever the clip. -/
def execClear (s : State) : Result State :=
  whenAllocated (fun s =>
    andThen (memFill headerSize (s.size - headerSize) 0 s) fun t => .next (t.respond 0)) s

/-- GETPIXEL x, y (R105). -/
def execGetpixel (x y : Word) (s : State) : Result State :=
  whenAllocated (fun s =>
    andThen (pixRead (sext16 x) (sext16 y) s) fun b => .next (s.respond (bitValue b))) s

/-- SETPIXEL x, y, V, M (R106): responds the bit before the write. -/
def execSetpixel (x y : Word) (v : Bool) (m : Mode) (s : State) : Result State :=
  whenAllocated (fun s =>
    andThen (pixWrite (sext16 x) (sext16 y) v m s) fun r => .next (r.2.respond (bitValue r.1))) s

end Sys2Proof.Machine
end

