-- ==== Sys2Proof/Machine/Text.lean ====
section
/-! DEFINITION. The bitmap-font glyph renderer: SETFONT, GLYPH, STRING (44_font.md). -/

namespace Sys2Proof.Machine

/-! ## Font tables -/

/-- The members of a glyph record lie in the ranges of R190 (PRESUMED by the spec, log 12). -/
def glyphInRange (g : Glyph) : Bool :=
  decide (g.bitmapOffset ≤ 65535 ∧ g.width ≤ 255 ∧ g.height ≤ 255 ∧ g.xAdvance ≤ 255 ∧
    (-128 ≤ g.xOffset ∧ g.xOffset ≤ 127) ∧ (-128 ≤ g.yOffset ∧ g.yOffset ≤ 127))

/-- The number of glyph records R191 (a) asks for. -/
def glyphCount (f : Font) : Nat := if f.first ≤ f.last then f.last - f.first + 1 else 0

/-- A font table is well formed: the ranges of R190, and R191 (a) and (b). -/
def fontWellFormed (f : Font) : Bool :=
  decide (f.first ≤ 65535 ∧ f.last ≤ 65535 ∧ f.yAdvance ≤ 255 ∧ f.glyphs.length = glyphCount f) &&
    f.glyphs.all fun g =>
      glyphInRange g && decide (g.bitmapOffset + (g.width * g.height + 7) / 8 ≤ f.bitmap.length)

/-- GlyphBit(f, g, col, row): most significant bit first, row-major, no row padding (R192).
In a well-formed table the byte is always there (log 14). -/
def glyphBit (f : Font) (g : Glyph) (col row : Nat) : Bool :=
  let k := row * g.width + col
  match f.bitmap[g.bitmapOffset + k / 8]? with
  | some b => b.getLsbD (7 - k % 8)
  | none => false

/-- The pixels that GlyphDraw writes for a glyph at (x, y): one per set bit, row by row (R197). -/
def glyphPixels (f : Font) (g : Glyph) (x y : Int) : List Pixel :=
  (List.range g.height).flatMap fun row =>
    (List.range g.width).filterMap fun col =>
      if glyphBit f g col row then
        some (x + g.xOffset + (col : Int), y + f.yAdvance + g.yOffset + (row : Int))
      else none

/-- The active font (R26): none when FONT_SEL is NONE.
A table that is not attached or not well formed stops the model (R26, R191). -/
def activeFont (s : State) : Result (Option Font) :=
  if s.fontSel = fontNone then .next none
  else
    match s.cfg.fonts[s.fontSel.toNat]? with
    | none => .fault .noSuchFont
    | some f => if fontWellFormed f then .next (some f) else .refused .malformedFont

/-- The glyph of a character code: none outside `[first, last]` (R197). -/
def fontGlyph (f : Font) (ch : Nat) : Option Glyph :=
  if ch < f.first ∨ f.last < ch then none else f.glyphs[ch - f.first]?

/-- GlyphDraw(x, y, ch, M): the advance and the new state (R197). -/
def glyphDraw (x y : Int) (ch : Nat) (m : Mode) (s : State) : Result (Int × State) :=
  andThen (activeFont s) fun font =>
  match font with
  | none => .next (0, s)
  | some f =>
    match fontGlyph f ch with
    | none => .next (0, s)
    | some g =>
      andThen (plot (glyphPixels f g x y) true m s) fun t => .next ((g.xAdvance : Int), t)

/-- The loop of STRING from cursor `c`: the final cursor and the new state (R195). -/
def stringDraw (y : Int) (m : Mode) : List Word → Int → State → Result (Int × State)
  | [], c, s => .next (c, s)
  | ch :: chs, c, s =>
    andThen (glyphDraw c y (zext16 ch) m s) fun r => stringDraw y m chs (c + r.1) r.2

/-! ## The commands -/

/-- SETFONT idx (R193): an index with no table behind it unsets the font. -/
def execSetfont (idx : Word) (s : State) : Result State :=
  whenAllocated (fun s =>
    .next ((s.setFontSel (if zext16 idx < s.cfg.nFonts then idx else fontNone)).respond 0)) s

/-- GLYPH x, y, ch, M (R194). -/
def execGlyph (x y ch : Word) (m : Mode) (s : State) : Result State :=
  whenAllocated (fun s =>
    andThen (glyphDraw (sext16 x) (sext16 y) (zext16 ch) m s) fun r => .next (r.2.respond r.1)) s

/-- STRING x, y, n, ch[0..n-1], M (R195): no cursor is kept after the command. -/
def execString (x y : Word) (chs : List Word) (m : Mode) (s : State) : Result State :=
  whenAllocated (fun s =>
    andThen (stringDraw (sext16 y) m chs (sext16 x) s) fun r => .next (r.2.respond r.1)) s

end Sys2Proof.Machine
end

