-- ==== Sys2Proof/Machine/Dispatch.lean ====
section
/-! DEFINITION. One arm per command, each one direct call of its meaning. -/

namespace Sys2Proof.Machine

def exec (i : Instr) (s : State) : Host.Outcome State Fault Refusal :=
  match i with
  | .init w h => Sys2Proof.Machine.execInit w h s
  | .clear => Sys2Proof.Machine.execClear s
  | .getpixel x y => Sys2Proof.Machine.execGetpixel x y s
  | .setpixel x y v m => Sys2Proof.Machine.execSetpixel x y v m s
  | .setclip x y w h => Sys2Proof.Machine.execSetclip x y w h s
  | .clrclip => Sys2Proof.Machine.execClrclip s
  | .hline x y w v m => Sys2Proof.Machine.execHline x y w v m s
  | .vline x y h v m => Sys2Proof.Machine.execVline x y h v m s
  | .rect x y w h v m => Sys2Proof.Machine.execRect x y w h v m s
  | .fillrect x y w h v m => Sys2Proof.Machine.execFillrect x y w h v m s
  | .line x0 y0 x1 y1 v m => Sys2Proof.Machine.execLine x0 y0 x1 y1 v m s
  | .circle cx cy r v m => Sys2Proof.Machine.execCircle cx cy r v m s
  | .fillcircle cx cy r v m => Sys2Proof.Machine.execFillcircle cx cy r v m s
  | .setfont idx => Sys2Proof.Machine.execSetfont idx s
  | .glyph x y ch m => Sys2Proof.Machine.execGlyph x y ch m s
  | .string x y chs m => Sys2Proof.Machine.execString x y chs m s
  | .display => Sys2Proof.Machine.execDisplay s

end Sys2Proof.Machine
end

