-- ==== Sys2Proof/Machine/Port.lean ====
section
/-! DEFINITION. What MGC does with one event of its port: a packet (R79, R233, R236) or a reset (R260). -/

namespace Sys2Proof.Machine

/-- The rest of the events on the port. -/
def State.withPort (es : List PortEvent) (s : State) : State := { s with port := es }

/-- A packet: decode, then the command's own checks and effect; an illegal packet is answered with ERR_ILLEGAL (R79, R233). -/
def acceptPacket (p : Packet) (s : State) : Result State :=
  match decode p with
  | .ok i => exec i s
  | .error _ => .next (s.raise .errIllegal)

/-- A reset: every register and FB as after reset (R260, R261).
The configuration, the events still to come and the record of past outputs are not MGC's registers and stay (log 4). -/
def State.resetEvent (s : State) : State :=
  { State.resetWith s.cfg with port := s.port, responses := s.responses, frames := s.frames }

/-- One event. -/
def runEvent (e : PortEvent) (s : State) : Result State :=
  match e with
  | .packet p => acceptPacket p s
  | .reset => .next s.resetEvent

end Sys2Proof.Machine
end

