-- ==== Sys2Proof/Machine/Step.lean ====
section
/-! DEFINITION. One step: the next event of the port, or idling when there is none (R12, R70, R240). -/

namespace Sys2Proof.Machine

/-- One step (R12): one command per step.
With nothing on the port the engine is idle and loses nothing (R240, log 5). -/
def step (s : State) : Host.Outcome State Fault Refusal :=
  match s.port with
  | [] => .next s
  | e :: es => runEvent e (s.withPort es)

/-- `s` with the packet whose bits are `w` presented on the command port before everything else (log 3, log 9). -/
def State.withFetchWord (s : State) (nbits w : Nat) : State :=
  s.withPort (.packet (tablePacket nbits w) :: s.port)

end Sys2Proof.Machine
end

