-- ==== Sys2Proof/Machine/Flags.lean ====
section
/-! DEFINITION. MGC has no status flags and no condition codes (R22). The only condition a command leaves is the STATUS field of its response, an output; here are its codes (R230). -/

namespace Sys2Proof.Machine

/-- The 8-bit code of a status (R230); codes 4 to 255 are never produced. -/
def Status.code : Status → BitVec 8
  | .ok => 0
  | .errAlloc => 1
  | .errIllegal => 2
  | .errState => 3

end Sys2Proof.Machine
end

