-- ==== Sys2Proof/Safety.lean ====
section
/-! DEFINITION. What a safe run is: the invariant that every step keeps (R24, R26, R27, R30 to R32, R49, R50), the premise on the configuration (R191), and a step that stops for no reason of the model's. -/

namespace Sys2Proof.Machine

/-- The premise on the configuration (R191, I5): every attached font table is well formed. -/
def FontsWellFormed (c : Config) : Prop := ∀ f ∈ c.fonts, fontWellFormed f = true

/-- R31 (b): the bits of the last page of every column that belong to rows at or below H are 0. -/
def State.PaddingClear (s : State) : Prop :=
  ∀ (x k : Nat) (b : Byte), x < s.w.toNat → s.h.toNat % 8 ≠ 0 → s.h.toNat % 8 ≤ k → k < 8 →
    s.fb.read (headerSize + x * s.pages + (s.pages - 1)) = some b → b.getLsbD k = false

/-- The invariant of MGC's state. -/
structure State.Inv (s : State) : Prop where
  /-- FB is in canonical form. -/
  canonical : s.fb.wf
  /-- R26: FONT_SEL is NONE or the index of an attached table. -/
  fontSel : s.fontSel = fontNone ∨ s.fontSel.toNat < s.cfg.nFonts
  /-- R32, R50: before a successful INIT every register has its reset value and no byte of FB is written. -/
  beforeInit : s.alloc = false →
    s.w = 0 ∧ s.h = 0 ∧ s.clipX = 0 ∧ s.clipY = 0 ∧ s.clipW = 0 ∧ s.clipH = 0 ∧
      s.fontSel = fontNone ∧ s.fb = []
  /-- R24: the sizes after INIT. -/
  extent : s.alloc = true →
    (1 ≤ s.w.toNat ∧ s.w.toNat ≤ 32767) ∧ (1 ≤ s.h.toNat ∧ s.h.toNat ≤ 32767)
  /-- R30: the storage fits. -/
  fits : s.alloc = true → s.size ≤ s.cfg.memBytes
  /-- R27, R49: exactly the bytes 0..SIZE-1 hold a value. -/
  listed : s.alloc = true → ∀ a, (s.fb.read a).isSome = true ↔ a < s.size
  /-- R31 (a): the header byte. -/
  header : s.alloc = true → s.fb.read 0 = some s.cfg.hdrValue
  /-- R31 (b): the padding bits. -/
  padding : s.alloc = true → s.PaddingClear

/-- A state whose step ends in a next state. -/
def State.Safe (s : State) : Prop := ∃ t, step s = .next t

end Sys2Proof.Machine
end

