-- ==== Sys2Proof/Certificates/Slice0/Obligations.lean ====
section
/-! DEFINITION. The statements about MGC, for the provers. First the spec's notions they are stated in, written from its rules; then one definition per statement. -/

namespace Sys2Proof.Claims

open Sys2Proof.Machine

/-! ## Packets, from R71, R73 and R78 -/

/-- OPC as a number: bits 15:8 of the header word (R71). -/
def opc (p : Packet) : Nat := p.header.toNat / 256

/-- RSV: bits 7:4 (R71). -/
def rsv (p : Packet) : Nat := p.header.toNat / 16 % 16

/-- V: bit 3 (R71). -/
def vNum (p : Packet) : Nat := p.header.toNat / 8 % 2

/-- M: bits 2:0 (R71). -/
def mNum (p : Packet) : Nat := p.header.toNat % 8

/-- The opcodes of class none, vm and m (R74, R76). -/
def classNone : List Nat := [0x01, 0x02, 0x03, 0x08, 0x09, 0x20, 0x30]

def classVm : List Nat := [0x04, 0x10, 0x11, 0x12, 0x13, 0x14, 0x15, 0x16]

def classM : List Nat := [0x21, 0x22]

/-- The length check of R77, by the formats of R73. -/
def LengthOk (p : Packet) : Prop :=
  (opc p ∈ [0x02, 0x09, 0x30] → p.length = 1) ∧
  (opc p = 0x20 → p.length = 2) ∧
  (opc p ∈ [0x01, 0x03, 0x04] → p.length = 3) ∧
  (opc p ∈ [0x10, 0x11, 0x15, 0x16, 0x21] → p.length = 4) ∧
  (opc p ∈ [0x08, 0x12, 0x13, 0x14] → p.length = 5) ∧
  (opc p = 0x22 → ∃ n, p.operands[2]? = some n ∧ p.length = 4 + n.toNat)

/-- A packet is illegal: R78 (a) to (f). -/
def Illegal (p : Packet) : Prop :=
  opc p ∉ classNone ++ classVm ++ classM ∨
  rsv p ≠ 0 ∨
  (opc p ∈ classNone ∧ (vNum p ≠ 0 ∨ mNum p ≠ 0)) ∨
  (opc p ∈ classM ∧ vNum p ≠ 0) ∨
  (opc p ∈ classVm ++ classM ∧ 5 ≤ mNum p) ∨
  ¬LengthOk p

/-- INIT w, h does not pass the size check (R232). -/
def SizeRefused (w h : Word) (s : State) : Prop :=
  w.toInt < 1 ∨ h.toInt < 1 ∨ s.cfg.memBytes < 1 + w.toNat * ((h.toNat + 7) / 8)

/-- `s` with one more response. -/
def answered (st : Status) (v : Int) (s : State) : State :=
  { s with responses := s.responses ++ [{ status := st, value := BitVec.ofInt 32 v }] }

/-! ## Pixels -/

/-- The state of a run after a successful INIT. -/
def Ready (s : State) : Prop := s.Inv ∧ s.alloc = true

/-- The compositing mux, from the sentence of R100. -/
def newBit (m : Mode) (v e : Bool) : Bool :=
  match m with
  | .set => v
  | .or => v || e
  | .and => v && e
  | .xor => v != e
  | .not => !v

/-- What the states before and after writing each pixel (x, y) `n x y` times with V and M have to do with each other.
A pixel in bounds and in the clip is merged as often as it is written, every other pixel is as before.
Every byte that none of the writes stores to is as before, and so is every bit of a stored byte that belongs to none of the pixels written. -/
def PixelsWritten (n : Int → Int → Nat) (v : Bool) (m : Mode) (s t : State) : Prop :=
  (∀ x y e, InBounds s x y → pixRead x y s = .next e →
    pixRead x y t = .next (if InClip s x y then (newBit m v)^[n x y] e else e)) ∧
  (∀ a, (∀ x y, 0 < n x y → storeAddr s x y ≠ some a) → t.fb.read a = s.fb.read a) ∧
  (∀ a b, s.fb.read a = some b → ∃ c, t.fb.read a = some c ∧
    ∀ k < 8, (∀ x y, 0 < n x y → storeAddr s x y = some a → rowBit y ≠ k) →
      c.getLsbD k = b.getLsbD k)

/-- The command completes: it responds (OK, `val`), writes each pixel (x, y) `n x y` times with V and M, and changes nothing else. -/
def Draws (i : Instr) (val : Int) (n : Int → Int → Nat) (v : Bool) (m : Mode) (s : State) : Prop :=
  ∃ t, exec i s = .next t ∧ t = { answered .ok val s with fb := t.fb } ∧ PixelsWritten n v m s t

/-- The closed form of the i-th pixel of LINE: the major coordinate advances by one, the minor one is the nearest row or column, ties away from the start. -/
def linePoint (x0 y0 x1 y1 : Int) (i : Nat) : Pixel :=
  let dx := (x1 - x0).natAbs
  let dy := (y1 - y0).natAbs
  let sx : Int := if x0 < x1 then 1 else -1
  let sy : Int := if y0 < y1 then 1 else -1
  if dy ≤ dx then (x0 + sx * i, y0 + sy * ((2 * i * dy + dx) / (2 * dx) : Nat))
  else (x0 + sx * ((2 * i * dx + dy) / (2 * dy) : Nat), y0 + sy * i)

/-- How often one pass of CIRCLE at (x, y) writes (px, py): once for each of the eight symmetric images that is this pixel, coincident images counted (R170). -/
def imageHits (cx cy : Int) (p : Int × Int) (px py : Int) : Nat :=
  let image (qx qy : Int) : Nat := if px = qx ∧ py = qy then 1 else 0
  image (cx + p.1) (cy + p.2) + image (cx - p.1) (cy + p.2) +
    image (cx + p.1) (cy - p.2) + image (cx - p.1) (cy - p.2) +
    image (cx + p.2) (cy + p.1) + image (cx - p.2) (cy + p.1) +
    image (cx + p.2) (cy - p.1) + image (cx - p.2) (cy - p.1)

/-- How often one pass of FILLCIRCLE at (x, y) writes (px, py): once for each of the four chords that holds it (R173). -/
def chordHits (cx cy : Int) (p : Int × Int) (px py : Int) : Nat :=
  let on (row half : Int) : Nat := if py = row ∧ (px - cx).natAbs ≤ half.natAbs then 1 else 0
  on (cy + p.2) p.1 + on (cy - p.2) p.1 + on (cy + p.1) p.2 + on (cy - p.1) p.2

/-! ## Text -/

/-- The active font (R26). -/
def selected (s : State) : Option Font :=
  if s.fontSel = 0xFFFF then none else s.cfg.fonts[s.fontSel.toNat]?

/-- The glyph of a code in the active font: none with no font, and outside [first, last] (R197). -/
def glyphOf (f : Option Font) (ch : Nat) : Option (Font × Glyph) :=
  match f with
  | none => none
  | some f =>
    if f.first ≤ ch ∧ ch ≤ f.last then (f.glyphs[ch - f.first]?).map fun g => (f, g) else none

/-- Bit k of a glyph's bitmap, most significant bit first (R192). -/
def bitOfStream (f : Font) (g : Glyph) (k : Nat) : Bool :=
  match f.bitmap[g.bitmapOffset + k / 8]? with
  | some b => b.getMsbD (k % 8)
  | none => false

/-- Bit (col, row) of a glyph's bitmap: row-major, with no padding between rows (R192). -/
def streamBit (f : Font) (g : Glyph) (col row : Nat) : Bool := bitOfStream f g (row * g.width + col)

/-- How often GlyphDraw at (x, y) writes (px, py): once where the glyph has a set bit there (R197). -/
def glyphHits (fg : Option (Font × Glyph)) (x y px py : Int) : Nat :=
  match fg with
  | none => 0
  | some (f, g) =>
    let col := px - (x + g.xOffset)
    let row := py - (y + f.yAdvance + g.yOffset)
    if (0 ≤ col ∧ col < g.width) ∧ (0 ≤ row ∧ row < g.height) ∧
      streamBit f g col.toNat row.toNat = true then 1 else 0

/-- The advance of a code: the glyph's xAdvance, 0 for an unsupported one (R197). -/
def advance (fg : Option (Font × Glyph)) : Int :=
  match fg with
  | none => 0
  | some (_, g) => g.xAdvance

/-- The final cursor of STRING from cursor `c` (R195). -/
def cursorAfter (f : Option Font) (c : Int) (chs : List Word) : Int :=
  c + (chs.map fun ch => advance (glyphOf f ch.toNat)).sum

/-- How often STRING from cursor `c` writes (px, py) (R195). -/
def stringHits (f : Option Font) (y : Int) (chs : List Word) (c px py : Int) : Nat :=
  match chs with
  | [] => 0
  | ch :: chs =>
    glyphHits (glyphOf f ch.toNat) c y px py +
      stringHits f y chs (c + advance (glyphOf f ch.toNat)) px py

end Sys2Proof.Claims

open Sys2Proof Sys2Proof.Machine Sys2Proof.Claims

/-! ## Encoding -/

/-- R72 to R76: decoding the packet of a well-formed command gives the command back. -/
def Obligations.DecodeOfEncodeIsTheCommand : Prop :=
  ∀ i : Instr, i.wellFormed = true → decode (encode i) = .ok i

/-- R79: a packet that decodes is the packet of the command it decodes to, so no two packets decode to one command. -/
def Obligations.EncodeOfDecodeIsThePacket : Prop :=
  ∀ (p : Packet) (i : Instr), decode p = .ok i → i.wellFormed = true ∧ encode i = p

/-- R78, R233: exactly the packets R78 lists are illegal; each is answered with ERR_ILLEGAL whatever the state, and changes nothing. -/
def Obligations.IllegalPacketsAreExactlyR78 : Prop :=
  ∀ (s : State) (p : Packet) (es : List PortEvent), s.port = .packet p :: es →
    (Illegal p → step s = .next (answered .errIllegal 0 { s with port := es })) ∧
    (¬Illegal p → ∃ i, decode p = .ok i ∧ step s = exec i { s with port := es })

/-- Words written out from the encodings of R71 to R76 decode to the commands they stand for. -/
def Obligations.SampleWordsDecode : Prop :=
  decode ⟨0x0100, [0x0080, 0x0040]⟩ = .ok (.init 128 64) ∧
  decode ⟨0x040B, [0x0003, 0x0003]⟩ = .ok (.setpixel 3 3 true .xor) ∧
  decode ⟨0x0800, [0xFFF6, 0xFFF6, 0x01F4, 0x01F4]⟩ = .ok (.setclip 0xFFF6 0xFFF6 500 500) ∧
  decode ⟨0x1002, [0, 3, 7]⟩ = .ok (.hline 0 3 7 false .and) ∧
  decode ⟨0x1508, [7, 7, 3]⟩ = .ok (.circle 7 7 3 true .set) ∧
  decode ⟨0x2201, [0, 0, 3, 0x41, 0x20, 0x42]⟩ = .ok (.string 0 0 [0x41, 0x20, 0x42] .or) ∧
  decode ⟨0x3000, []⟩ = .ok .display ∧
  decode ⟨0x1507, [7, 7, 3]⟩ = .error .reservedMode ∧
  decode ⟨0x220C, [0, 0, 0]⟩ = .error .valueBitSet ∧
  decode ⟨0x2200, [0, 0, 2, 0x41]⟩ = .error .wrongLength

/-! ## The machine -/

/-- R12, R79: a step runs the command that the next packet decodes to, with that packet taken off the port. -/
def Obligations.StepRunsTheDecodedCommand : Prop :=
  ∀ (s : State) (p : Packet) (es : List PortEvent) (i : Instr),
    s.port = .packet p :: es → decode p = .ok i → step s = exec i { s with port := es }

/-- The model's choice (log 3, log 9): a packet given as one number is the next one that a step runs. -/
def Obligations.TableWordRunsItsCommand : Prop :=
  ∀ (s : State) (nbits w : Nat) (i : Instr), decodeTableWord nbits w = some i →
    step (s.withFetchWord nbits w) = exec i s

/-- R32, R260, R261: the state after reset, for every configuration. -/
def Obligations.ResetStateHasTheSpecValues : Prop :=
  ∀ (c : Config) (s : State), s = State.resetWith c →
    s.alloc = false ∧ s.w = 0 ∧ s.h = 0 ∧
    s.clipX = 0 ∧ s.clipY = 0 ∧ s.clipW = 0 ∧ s.clipH = 0 ∧ s.fontSel = 0xFFFF ∧
    (∀ a, s.fb.read a = none) ∧ s.responses = [] ∧ s.frames = [] ∧ s.cfg = c ∧
    ∀ i : Instr, i.mnemonic ≠ .init → exec i s = .next (answered .errState 0 s)

/-- The model's choice (log 4, log 5): a reset event gives the reset values of R260 and leaves the record of past outputs;
with nothing on the port a step changes nothing. -/
def Obligations.ResetAndIdleSteps : Prop :=
  (∀ (s : State) (es : List PortEvent), s.port = .reset :: es →
    step s = .next { State.resetWith s.cfg with
      port := es, responses := s.responses, frames := s.frames }) ∧
  (∀ s : State, s.port = [] → step s = .next s)

/-- The invariant holds after reset, whatever the configuration. -/
def Obligations.InvariantHoldsAtReset : Prop :=
  State.reset.Inv ∧ ∀ c : Config, (State.resetWith c).Inv

/-- The invariant is kept by every step from every state that meets it. -/
def Obligations.EveryStepKeepsTheInvariant : Prop :=
  ∀ s t : State, s.Inv → step s = .next t → t.Inv

/-- With well-formed font tables nothing ever stops the model: every step, and every command, completes. -/
def Obligations.NoStepStops : Prop :=
  ∀ s : State, s.Inv → FontsWellFormed s.cfg → s.Safe ∧ ∀ i : Instr, ∃ t, exec i s = .next t

/-- R31: the header byte, the padding bits and the sizes, after every command. -/
def Obligations.HeaderPaddingAndSizesAreKept : Prop :=
  ∀ s t : State, s.Inv → s.alloc = true → (∀ es, s.port ≠ .reset :: es) → step s = .next t →
    t.alloc = true ∧ t.fb.read 0 = some t.cfg.hdrValue ∧ t.PaddingClear ∧
    t.w = s.w ∧ t.h = s.h ∧ t.pages = s.pages ∧ t.size = s.size

/-- R23 to R27, R222: each piece of state is written by its own commands only. -/
def Obligations.EachRegisterHasOnlyItsWriters : Prop :=
  ∀ (i : Instr) (s t : State), exec i s = .next t →
    t.cfg = s.cfg ∧ t.port = s.port ∧
    (i.mnemonic ≠ .init → t.alloc = s.alloc ∧ t.w = s.w ∧ t.h = s.h) ∧
    (i.mnemonic ∉ [.init, .setclip, .clrclip] →
      t.clipX = s.clipX ∧ t.clipY = s.clipY ∧ t.clipW = s.clipW ∧ t.clipH = s.clipH) ∧
    (i.mnemonic ≠ .setfont → t.fontSel = s.fontSel) ∧
    (i.mnemonic ≠ .display → t.frames = s.frames) ∧
    (i.mnemonic ∈ [.getpixel, .setclip, .clrclip, .setfont, .display] →
      ∀ a, t.fb.read a = s.fb.read a)

/-- R222: nothing but DISPLAY emits bytes. -/
def Obligations.OnlyDisplayEmitsBytes : Prop :=
  ∀ s t : State, step s = .next t →
    t.frames = s.frames ∨
    ∃ es bs, s.port = .packet ⟨0x3000, []⟩ :: es ∧ s.alloc = true ∧ t.frames = s.frames ++ [bs]

/-! ## Statuses -/

/-- R234: the state check, and no other cause of ERR_STATE. -/
def Obligations.StateCheckOfEveryCommand : Prop :=
  (∀ (w h : Word) (s : State), s.alloc = true →
    exec (.init w h) s = .next (answered .errState 0 s)) ∧
  (∀ (i : Instr) (s : State), i.mnemonic ≠ .init → s.alloc = false →
    exec i s = .next (answered .errState 0 s)) ∧
  (∀ (i : Instr) (s t : State) (v : ValueWord), exec i s = .next t →
    t.responses = s.responses ++ [⟨.errState, v⟩] →
    (i.mnemonic = .init ∧ s.alloc = true) ∨ (i.mnemonic ≠ .init ∧ s.alloc = false))

/-- R232: ERR_ALLOC, its cause, and what follows it. -/
def Obligations.AllocErrorExactlyWhenStorageDoesNotFit : Prop :=
  (∀ (w h : Word) (s : State), s.alloc = false → SizeRefused w h s →
    ∃ t, exec (.init w h) s = .next t ∧ t = answered .errAlloc 0 s ∧
      (∀ i : Instr, i.mnemonic ≠ .init → exec i t = .next (answered .errState 0 t)) ∧
      (∀ w' h' : Word, ¬SizeRefused w' h' t →
        ∃ u, exec (.init w' h') t = .next u ∧ u.alloc = true ∧
          u.responses = t.responses ++ [⟨.ok, 0⟩])) ∧
  (∀ (i : Instr) (s t : State) (v : ValueWord), exec i s = .next t →
    t.responses = s.responses ++ [⟨.errAlloc, v⟩] →
    ∃ w h, i = .init w h ∧ s.alloc = false ∧ SizeRefused w h s)

/-- R236: legality, then the state check, then the size check decide the status of the one response to a packet. -/
def Obligations.FirstFailingCheckDecidesTheStatus : Prop :=
  ∀ (s t : State) (p : Packet) (es : List PortEvent),
    s.port = .packet p :: es → step s = .next t →
    ∃ r : Response, t.responses = s.responses ++ [r] ∧
      (Illegal p → r.status = .errIllegal) ∧
      (¬Illegal p → (opc p = 0x01 ↔ s.alloc = true) → r.status = .errState) ∧
      (¬Illegal p → opc p = 0x01 → s.alloc = false → ∀ w h, p.operands = [w, h] →
        (SizeRefused w h s → r.status = .errAlloc) ∧ (¬SizeRefused w h s → r.status = .ok)) ∧
      (¬Illegal p → opc p ≠ 0x01 → s.alloc = true → r.status = .ok)

/-- R80, R230: one response per packet; VALUE is 0 with every status but OK, and for every command but the four that return a value. -/
def Obligations.OneResponsePerPacket : Prop :=
  ∀ (s t : State) (p : Packet) (es : List PortEvent),
    s.port = .packet p :: es → step s = .next t →
    ∃ r : Response, t.responses = s.responses ++ [r] ∧ r.status.code.toNat ≤ 3 ∧
      (r.status.code ≠ 0 → r.value = 0) ∧
      (opc p ∉ [0x03, 0x04, 0x21, 0x22] → r.value = 0)

/-- R231: an error changes nothing but for its response (X, 0). -/
def Obligations.ErrorsChangeNothing : Prop :=
  ∀ (s t : State) (p : Packet) (es : List PortEvent) (r : Response),
    s.port = .packet p :: es → step s = .next t →
    t.responses = s.responses ++ [r] → r.status ≠ .ok →
    t = answered r.status 0 { s with port := es }

/-! ## Framebuffer -/

/-- R43, R44: the byte and the bit of a pixel in bounds. -/
def Obligations.PixelAddressesAreR43 : Prop :=
  (∀ (s : State) (x y : Int), (0 ≤ x ∧ x < s.w.toNat) ∧ (0 ≤ y ∧ y < s.h.toNat) →
    (addr s x y : Int) = x * ((s.h.toNat + 7) / 8 : Nat) + y / 8 + 1 ∧
    1 ≤ addr s x y ∧ addr s x y ≤ s.size - 1) ∧
  (∀ (s : State) (x y x' y' : Int),
    (0 ≤ x ∧ x < s.w.toNat) ∧ (0 ≤ y ∧ y < s.h.toNat) →
    (0 ≤ x' ∧ x' < s.w.toNat) ∧ (0 ≤ y' ∧ y' < s.h.toNat) →
    (addr s x y = addr s x' y' ↔ x = x' ∧ y / 8 = y' / 8) ∧
    (addr s x y = addr s x' y' ∧ rowBit y = rowBit y' ↔ x = x' ∧ y = y')) ∧
  (∀ s : State, s.w = 128 → s.h = 64 →
    addr s 0 0 = 1 ∧ addr s 0 7 = 1 ∧ addr s 0 8 = 2 ∧ addr s 1 0 = 9 ∧ addr s 10 10 = 82 ∧
    addr s 5 20 = 43 ∧ addr s 127 63 = 1024) ∧
  (∀ s : State, s.w = 10 → s.h = 12 → addr s 9 11 = 20)

/-- R108: INIT. -/
def Obligations.InitAllocates : Prop :=
  ∀ (w h : Word) (s : State),
    (s.alloc = true → exec (.init w h) s = .next (answered .errState 0 s)) ∧
    (s.alloc = false → SizeRefused w h s →
      exec (.init w h) s = .next (answered .errAlloc 0 s)) ∧
    (s.alloc = false → ¬SizeRefused w h s →
      ∃ t, exec (.init w h) s = .next t ∧
        t = { answered .ok 0 s with
          alloc := true, w := w, h := h, clipX := 0, clipY := 0, clipW := w, clipH := h,
          fb := t.fb } ∧
        t.fb.read 0 = some s.cfg.hdrValue ∧
        (∀ a, 1 ≤ a → a ≤ w.toNat * ((h.toNat + 7) / 8) → t.fb.read a = some 0) ∧
        (∀ a, w.toNat * ((h.toNat + 7) / 8) < a → t.fb.read a = s.fb.read a))

/-- R107: CLEAR. -/
def Obligations.ClearZeroesThePixels : Prop :=
  ∀ s : State,
    (s.alloc = false → exec .clear s = .next (answered .errState 0 s)) ∧
    (Ready s → ∃ t, exec .clear s = .next t ∧ t = { answered .ok 0 s with fb := t.fb } ∧
      (∀ a, 1 ≤ a → a < s.size → t.fb.read a = some 0) ∧
      (∀ a, (a = 0 ∨ s.size ≤ a) → t.fb.read a = s.fb.read a) ∧
      (∀ x y, pixRead x y t = .next false))

/-- R42, R101, R105: GETPIXEL, with the bounds of R42 written out. -/
def Obligations.GetpixelReadsTheStoredBit : Prop :=
  ∀ (x y : Word) (s : State), Ready s →
    ((0 ≤ x.toInt ∧ x.toInt < s.w.toNat) ∧ (0 ≤ y.toInt ∧ y.toInt < s.h.toNat) →
      ∃ b, s.fb.read (x.toNat * s.pages + y.toNat / 8 + 1) = some b ∧
        exec (.getpixel x y) s =
          .next (answered .ok (if b.getLsbD (y.toNat % 8) then 1 else 0) s)) ∧
    (x.toInt < 0 ∨ s.w.toNat ≤ x.toInt ∨ y.toInt < 0 ∨ s.h.toNat ≤ y.toInt →
      exec (.getpixel x y) s = .next (answered .ok 0 s))

/-- R102, R103, R106: SETPIXEL stores the merged bit where both gates pass, and nothing elsewhere; it responds the bit before the write. -/
def Obligations.SetpixelStoresTheMergedBit : Prop :=
  ∀ (x y : Word) (v : Bool) (m : Mode) (s : State), Ready s →
    (∀ a, storeAddr s x.toInt y.toInt = some a →
      ∃ t b c, exec (.setpixel x y v m) s = .next t ∧
        s.fb.read a = some b ∧ t.fb.read a = some c ∧
        (∀ k < 8, c.getLsbD k =
          if k = y.toNat % 8 then newBit m v (b.getLsbD k) else b.getLsbD k) ∧
        (∀ a', a' ≠ a → t.fb.read a' = s.fb.read a') ∧
        t = { answered .ok (if b.getLsbD (y.toNat % 8) then 1 else 0) s with fb := t.fb }) ∧
    (storeAddr s x.toInt y.toInt = none →
      exec (.setpixel x y v m) s = .next (answered .ok 0 s))

/-- R104 (c): two SETPIXEL commands with V = 1 under XOR restore FB. -/
def Obligations.XorTwiceRestoresTheBuffer : Prop :=
  ∀ (x y : Word) (s : State), Ready s →
    ∃ t u, exec (.setpixel x y true .xor) s = .next t ∧
      exec (.setpixel x y true .xor) t = .next u ∧ u.fb = s.fb

/-- R100, R105, R106: what a SETPIXEL stores, the next GETPIXEL of the pixel reads. -/
def Obligations.GetpixelReadsWhatSetpixelStored : Prop :=
  ∀ (x y : Word) (v : Bool) (m : Mode) (s : State), Ready s →
    InBounds s x.toInt y.toInt → InClip s x.toInt y.toInt →
    ∃ t u e, exec (.setpixel x y v m) s = .next t ∧ exec (.getpixel x y) t = .next u ∧
      t.responses = s.responses ++ [⟨.ok, if e then 1 else 0⟩] ∧
      u.responses = t.responses ++ [⟨.ok, if newBit m v e then 1 else 0⟩]

/-! ## Clip -/

/-- R132, R133: SETCLIP replaces the clip registers, CLRCLIP restores the default; neither touches anything else. -/
def Obligations.ClipCommandsWriteTheClipRegisters : Prop :=
  (∀ (x y w h : Word) (s : State), s.alloc = true →
    exec (.setclip x y w h) s =
      .next { answered .ok 0 s with clipX := x, clipY := y, clipW := w, clipH := h }) ∧
  (∀ s : State, s.alloc = true →
    exec .clrclip s =
      .next { answered .ok 0 s with clipX := 0, clipY := 0, clipW := s.w, clipH := s.h })

/-- R103, R131, R132: after SETCLIP x, y, w, h a pixel write in bounds has effect exactly on the columns x to x+w and rows y to y+h, both ends included and without wrap. -/
def Obligations.ClipGateIsClosedAtBothEnds : Prop :=
  ∀ (x y w h px py : Word) (v : Bool) (m : Mode) (s : State), Ready s →
    InBounds s px.toInt py.toInt →
    ∃ t u e, exec (.setclip x y w h) s = .next t ∧ exec (.setpixel px py v m) t = .next u ∧
      pixRead px.toInt py.toInt s = .next e ∧
      pixRead px.toInt py.toInt u = .next
        (if (x.toInt ≤ px.toInt ∧ px.toInt ≤ x.toInt + w.toInt) ∧
          (y.toInt ≤ py.toInt ∧ py.toInt ≤ y.toInt + h.toInt) then newBit m v e else e)

/-- R131, R135: the default clip admits every pixel in bounds, and so does {0, 0, W-1, H-1}. -/
def Obligations.DefaultClipAdmitsThePixelsInBounds : Prop :=
  ∀ s t : State, Ready s → exec .clrclip s = .next t →
    (∀ x y, InBounds t x y → InClip t x y ∧ InClip (t.setClip 0 0 (s.w - 1) (s.h - 1)) x y) ∧
    (∀ x y, InClip t x y ↔ (0 ≤ x ∧ x ≤ s.w.toNat) ∧ (0 ≤ y ∧ y ≤ s.h.toNat))

/-- R51, R103, R134: no command but CLEAR changes a pixel outside the clip. -/
def Obligations.PixelsOutsideTheClipAreKept : Prop :=
  ∀ (i : Instr) (s t : State), Ready s → i.mnemonic ≠ .clear → exec i s = .next t →
    ∀ x y, InBounds s x y → ¬InClip s x y → pixRead x y t = pixRead x y s

/-- R134: GETPIXEL, CLEAR and DISPLAY do the same whatever the clip. -/
def Obligations.ReadsAndClearIgnoreTheClip : Prop :=
  ∀ (i : Instr) (s t : State) (cx cy cw ch : Word),
    i.mnemonic ∈ [.getpixel, .clear, .display] → exec i s = .next t →
    exec i (s.setClip cx cy cw ch) = .next (t.setClip cx cy cw ch)

/-! ## Lines and rectangles -/

/-- R140, R147, R148: HLINE. -/
def Obligations.HlineWritesItsRow : Prop :=
  ∀ (x y w : Word) (v : Bool) (m : Mode) (s : State), Ready s →
    Draws (.hline x y w v m) 0
      (fun px py =>
        if py = y.toInt ∧ x.toInt ≤ px ∧ px ≤ x.toInt + w.toInt then 1 else 0) v m s

/-- R141, R147, R148: VLINE. -/
def Obligations.VlineWritesItsColumn : Prop :=
  ∀ (x y h : Word) (v : Bool) (m : Mode) (s : State), Ready s →
    Draws (.vline x y h v m) 0
      (fun px py =>
        if px = x.toInt ∧ y.toInt ≤ py ∧ py ≤ y.toInt + h.toInt then 1 else 0) v m s

/-- R142, R147: RECT, the four edges with their asymmetric extents. -/
def Obligations.RectWritesItsFourEdges : Prop :=
  ∀ (x y w h : Word) (v : Bool) (m : Mode) (s : State), Ready s →
    Draws (.rect x y w h v m) 0
      (fun px py =>
        (if py = y.toInt ∧ x.toInt ≤ px ∧ px ≤ x.toInt + (w.toInt - 1) then 1 else 0) +
        (if py = y.toInt + h.toInt ∧ x.toInt ≤ px ∧ px ≤ x.toInt + w.toInt then 1 else 0) +
        (if px = x.toInt ∧ y.toInt ≤ py ∧ py ≤ y.toInt + (h.toInt - 1) then 1 else 0) +
        (if px = x.toInt + w.toInt ∧ y.toInt ≤ py ∧ py ≤ y.toInt + h.toInt then 1 else 0)) v m s

/-- R143, R147, R148: FILLRECT. -/
def Obligations.FillrectWritesItsArea : Prop :=
  ∀ (x y w h : Word) (v : Bool) (m : Mode) (s : State), Ready s →
    Draws (.fillrect x y w h v m) 0
      (fun px py =>
        if (x.toInt ≤ px ∧ px ≤ x.toInt + w.toInt) ∧
          (y.toInt ≤ py ∧ py ≤ y.toInt + h.toInt) then 1 else 0) v m s

/-- R145, R147: LINE writes the pixels of its loop. -/
def Obligations.LineWritesItsPixels : Prop :=
  ∀ (x0 y0 x1 y1 : Word) (v : Bool) (m : Mode) (s : State), Ready s →
    Draws (.line x0 y0 x1 y1 v m) 0
      (fun px py => (linePixels x0.toInt y0.toInt x1.toInt y1.toInt).count (px, py)) v m s

/-- R142, R265: under XOR with V = 1 the corners (x, y) and (x+w, y+h) of RECT end unchanged, the other two toggled. -/
def Obligations.XorRectangleKeepsTwoCorners : Prop :=
  ∀ (x y w h : Word) (s t : State), Ready s → 1 ≤ w.toInt → 1 ≤ h.toInt →
    exec (.rect x y w h true .xor) s = .next t →
    (∀ e, pixRead x.toInt y.toInt s = .next e → pixRead x.toInt y.toInt t = .next e) ∧
    (∀ e, pixRead (x.toInt + w.toInt) (y.toInt + h.toInt) s = .next e →
      pixRead (x.toInt + w.toInt) (y.toInt + h.toInt) t = .next e) ∧
    (∀ px py e, (px = x.toInt + w.toInt ∧ py = y.toInt ∨ px = x.toInt ∧ py = y.toInt + h.toInt) →
      InBounds s px py → InClip s px py → pixRead px py s = .next e →
      pixRead px py t = .next (!e))

/-- R148, R172, R235: a negative extent or radius writes nothing and is no error. -/
def Obligations.NegativeExtentsWriteNothing : Prop :=
  ∀ (x y w h : Word) (v : Bool) (m : Mode) (s : State), s.alloc = true →
    (w.toInt < 0 → exec (.hline x y w v m) s = .next (answered .ok 0 s)) ∧
    (h.toInt < 0 → exec (.vline x y h v m) s = .next (answered .ok 0 s)) ∧
    (w.toInt < 0 ∨ h.toInt < 0 → exec (.fillrect x y w h v m) s = .next (answered .ok 0 s)) ∧
    (w.toInt < 0 → h.toInt < 0 → exec (.rect x y w h v m) s = .next (answered .ok 0 s)) ∧
    (w.toInt < 0 → exec (.circle x y w v m) s = .next (answered .ok 0 s)) ∧
    (w.toInt < 0 → exec (.fillcircle x y w v m) s = .next (answered .ok 0 s))

/-- R109: the multiplicity law. -/
def Obligations.MultiplicityLaw : Prop :=
  ∀ (ps : List Pixel) (v : Bool) (m : Mode) (s : State), Ready s →
    ∃ t, plot ps v m s = .next t ∧ t = { s with fb := t.fb } ∧
      (∀ x y e, InBounds s x y → pixRead x y s = .next e →
        pixRead x y t = .next
          (if ¬InClip s x y ∨ ps.count (x, y) = 0 then e
           else if m = .xor ∧ v = true then (if ps.count (x, y) % 2 = 0 then e else !e)
           else newBit m v e)) ∧
      (∀ qs : List Pixel, qs.Perm ps → plot qs v m s = .next t)

/-- R146 (b), (c): the pixels of LINE. -/
def Obligations.LineVisitsDistinctPixelsFromEndToEnd : Prop :=
  ∀ x0 y0 x1 y1 : Int,
    (linePixels x0 y0 x1 y1).length = max (x1 - x0).natAbs (y1 - y0).natAbs + 1 ∧
    (linePixels x0 y0 x1 y1).Nodup ∧
    (linePixels x0 y0 x1 y1).head? = some (x0, y0) ∧
    (linePixels x0 y0 x1 y1).getLast? = some (x1, y1) ∧
    (∀ p ∈ linePixels x0 y0 x1 y1, (min x0 x1 ≤ p.1 ∧ p.1 ≤ max x0 x1) ∧
      (min y0 y1 ≤ p.2 ∧ p.2 ≤ max y0 y1)) ∧
    (linePixels x0 y0 x1 y1).IsChain
      (fun p q => (q.1 - p.1).natAbs ≤ 1 ∧ (q.2 - p.2).natAbs ≤ 1 ∧
        (if (y1 - y0).natAbs ≤ (x1 - x0).natAbs then (q.1 - p.1).natAbs = 1
         else (q.2 - p.2).natAbs = 1))

/-- The loop of R145 visits, in order, the pixels of the closed form. -/
def Obligations.LineFollowsItsClosedForm : Prop :=
  ∀ x0 y0 x1 y1 : Int,
    linePixels x0 y0 x1 y1 =
      (List.range (max (x1 - x0).natAbs (y1 - y0).natAbs + 1)).map (linePoint x0 y0 x1 y1)

/-- R144: symmetric in all eight octants, the terminal pixel is plotted, and a degenerate segment is that of HLINE or VLINE. -/
def Obligations.LineMeetsTheSourceProperties : Prop :=
  (∀ x0 y0 x1 y1 c : Int,
    linePixels (c - x0) y0 (c - x1) y1 = (linePixels x0 y0 x1 y1).map (fun p => (c - p.1, p.2)) ∧
    linePixels x0 (c - y0) x1 (c - y1) = (linePixels x0 y0 x1 y1).map (fun p => (p.1, c - p.2)) ∧
    linePixels y0 x0 y1 x1 = (linePixels x0 y0 x1 y1).map (fun p => (p.2, p.1)) ∧
    (x1, y1) ∈ linePixels x0 y0 x1 y1) ∧
  (∀ x0 x1 y : Int,
    (linePixels x0 y x1 y).Perm (hlinePixels (min x0 x1) y (x1 - x0).natAbs)) ∧
  (∀ x y0 y1 : Int,
    (linePixels x y0 x y1).Perm (vlinePixels x (min y0 y1) (y1 - y0).natAbs)) ∧
  (linePixels 0 0 10 0).Perm (hlinePixels 0 0 10)

/-- R268: how many pixel writes HLINE, VLINE, FILLRECT, RECT, LINE, CIRCLE (16 per iteration of two passes) and GLYPH (one per set bit) make. -/
def Obligations.PixelWriteCounts : Prop :=
  (∀ x y w h : Int,
    (hlinePixels x y w).length = (max (w + 1) 0).toNat ∧
    (vlinePixels x y h).length = (max (h + 1) 0).toNat ∧
    (fillrectPixels x y w h).length = (max (w + 1) 0 * max (h + 1) 0).toNat ∧
    (rectPixels x y w h).length =
      (max w 0 + max (w + 1) 0 + max h 0 + max (h + 1) 0).toNat ∧
    (linePixels x y w h).length = max (w - x).natAbs (h - y).natAbs + 1) ∧
  (∀ cx cy r : Int, ∃ k : Nat,
    (circlePasses r).length = 2 * k ∧ (circlePixels cx cy r).length = 16 * k) ∧
  (∀ (f : Font) (g : Glyph) (x y : Int),
    (glyphPixels f g x y).length =
      (List.range (g.width * g.height)).countP fun k => bitOfStream f g k)

/-! ## Circles -/

/-- R147, R170, R172: CIRCLE writes the eight images of each pass of its loop. -/
def Obligations.CircleWritesItsPasses : Prop :=
  ∀ (cx cy r : Word) (v : Bool) (m : Mode) (s : State), Ready s →
    Draws (.circle cx cy r v m) 0
      (fun px py =>
        ((circlePasses r.toInt).map fun p => imageHits cx.toInt cy.toInt p px py).sum) v m s

/-- R147, R173, R174: FILLCIRCLE writes the four chords of each pass of its loop. -/
def Obligations.FillcircleWritesItsChords : Prop :=
  ∀ (cx cy r : Word) (v : Bool) (m : Mode) (s : State), Ready s →
    Draws (.fillcircle cx cy r v m) 0
      (fun px py =>
        ((circlePasses r.toInt).map fun p => chordHits cx.toInt cy.toInt p px py).sum) v m s

/-- R172, R174, R175: the passes of the circle loop, two per iteration.
Iteration j begins at (j, y); its second pass keeps y exactly when the decision value (j+1)² + y² - y - r² is negative, and is at y - 1 otherwise.
The next iteration begins at (j+1, y of the second pass), and there is one exactly when that y is not below j+1. -/
def Obligations.CirclePassesAreBounded : Prop :=
  (∀ r : Int, r < 0 → circlePasses r = []) ∧
  (∀ r : Int, 0 ≤ r →
    (circlePasses r)[0]? = some (0, r) ∧
    (∃ k : Nat, (circlePasses r).length = 2 * k ∧ 1 ≤ k ∧ (k : Int) ≤ r + 1 ∧
      (∀ j < k, ∃ y y' : Int,
        (circlePasses r)[2 * j]? = some ((j : Int), y) ∧
        (circlePasses r)[2 * j + 1]? = some ((j : Int), y') ∧
        (j : Int) ≤ y ∧
        y' = (if ((j : Int) + 1) ^ 2 + y ^ 2 - y < r ^ 2 then y else y - 1) ∧
        (j + 1 < k ↔ (j : Int) + 1 ≤ y') ∧
        (j + 1 < k → (circlePasses r)[2 * (j + 1)]? = some ((j : Int) + 1, y'))) ∧
      ∀ n : Nat, r + 1 ≤ n → circleLoop n 0 r (1 - r) = circlePasses r) ∧
    ∀ p ∈ circlePasses r, (0 ≤ p.1 ∧ p.1 ≤ r) ∧ (-1 ≤ p.2 ∧ p.2 ≤ r)) ∧
  [0, 1, 2, 3, 4, 5].map (fun r => (circlePasses r).length) = [2, 2, 4, 6, 8, 8]

/-- R171: the eight-way symmetry of CIRCLE, as often as each pixel is written. -/
def Obligations.CircleHasEightfoldSymmetry : Prop :=
  ∀ cx cy r a b : Int,
    (circlePixels cx cy r).count (cx + a, cy + b) = (circlePixels cx cy r).count (cx - a, cy + b) ∧
    (circlePixels cx cy r).count (cx + a, cy + b) = (circlePixels cx cy r).count (cx + a, cy - b) ∧
    (circlePixels cx cy r).count (cx + a, cy + b) = (circlePixels cx cy r).count (cx + b, cy + a)

/-- R172: under XOR with V = 1 a CIRCLE of radius 0 or 1 changes nothing. -/
def Obligations.SmallXorCircleChangesNothing : Prop :=
  ∀ (cx cy r : Word) (s : State), Ready s → r.toInt = 0 ∨ r.toInt = 1 →
    exec (.circle cx cy r true .xor) s = .next (answered .ok 0 s)

/-- R174: the filled shape contains the outline. -/
def Obligations.FillcircleContainsCircle : Prop :=
  ∀ cx cy r : Int, ∀ p ∈ circlePixels cx cy r, p ∈ fillcirclePixels cx cy r

/-! ## Text -/

/-- R193: SETFONT. -/
def Obligations.SetfontSelectsOrUnsets : Prop :=
  ∀ (idx : Word) (s : State), s.alloc = true →
    (idx.toNat < s.cfg.fonts.length →
      exec (.setfont idx) s = .next { answered .ok 0 s with fontSel := idx }) ∧
    (s.cfg.fonts.length ≤ idx.toNat →
      exec (.setfont idx) s = .next { answered .ok 0 s with fontSel := 0xFFFF })

/-- R190, R191: the font tables the model accepts. That the member ranges of R190 belong to being well formed is the model's (log 12). -/
def Obligations.WellFormedFontsAreThoseOfR191 : Prop :=
  ∀ f : Font, fontWellFormed f = true ↔
    (f.first ≤ 65535 ∧ f.last ≤ 65535 ∧ f.yAdvance ≤ 255) ∧
    (f.first ≤ f.last → f.glyphs.length = f.last - f.first + 1) ∧
    (f.last < f.first → f.glyphs = []) ∧
    ∀ g ∈ f.glyphs,
      (g.bitmapOffset ≤ 65535 ∧ g.width ≤ 255 ∧ g.height ≤ 255 ∧ g.xAdvance ≤ 255) ∧
      (-128 ≤ g.xOffset ∧ g.xOffset ≤ 127) ∧ (-128 ≤ g.yOffset ∧ g.yOffset ≤ 127) ∧
      g.bitmapOffset + (g.width * g.height + 7) / 8 ≤ f.bitmap.length

/-- R192, R194, R197: GLYPH writes a 1 for each set bit of the glyph and responds its advance. -/
def Obligations.GlyphWritesItsSetBits : Prop :=
  ∀ (x y ch : Word) (m : Mode) (s : State), Ready s → FontsWellFormed s.cfg →
    Draws (.glyph x y ch m) (advance (glyphOf (selected s) ch.toNat))
      (fun px py => glyphHits (glyphOf (selected s) ch.toNat) x.toInt y.toInt px py) true m s

/-- R195: STRING draws its characters left to right from the cursor and responds the final cursor. -/
def Obligations.StringWritesItsGlyphs : Prop :=
  ∀ (x y : Word) (chs : List Word) (m : Mode) (s : State), Ready s → FontsWellFormed s.cfg →
    Draws (.string x y chs m) (cursorAfter (selected s) x.toInt chs)
      (fun px py => stringHits (selected s) y.toInt chs x.toInt px py) true m s

/-- R196: the response of STRING is the final cursor, without wrap. -/
def Obligations.StringCursorFitsTheResponse : Prop :=
  ∀ (x y : Word) (chs : List Word) (m : Mode) (s : State), Ready s → FontsWellFormed s.cfg →
    (Instr.string x y chs m).wellFormed = true →
    ∃ t r, exec (.string x y chs m) s = .next t ∧ t.responses = s.responses ++ [r] ∧
      r.value.toInt = x.toInt + (chs.map fun ch => advance (glyphOf (selected s) ch.toNat)).sum ∧
      -32768 ≤ r.value.toInt ∧ r.value.toInt ≤ 16744192

/-- R191, I5 (log 8): a glyph drawn with a table that is not well formed is refused by name; with no glyph to draw there is nothing to refuse. -/
def Obligations.MalformedFontIsRefused : Prop :=
  ∀ (x y ch : Word) (chs : List Word) (m : Mode) (s : State) (f : Font),
    s.alloc = true → selected s = some f → fontWellFormed f = false →
    exec (.glyph x y ch m) s = .refused .malformedFont ∧
    exec (.string x y (ch :: chs) m) s = .refused .malformedFont ∧
    exec (.string x y [] m) s = .next (answered .ok x.toInt s)

/-! ## Display -/

/-- R220, R221: DISPLAY emits FB[0..SIZE-1] in ascending index, and emits it again when issued again. -/
def Obligations.DisplayEmitsTheBuffer : Prop :=
  ∀ s : State,
    (s.alloc = false → exec .display s = .next (answered .errState 0 s)) ∧
    (Ready s → ∃ bs : List Byte, bs.length = s.size ∧ (∀ a < s.size, bs[a]? = s.fb.read a) ∧
      ∃ t, exec .display s = .next t ∧
        t = { answered .ok 0 s with frames := s.frames ++ [bs] } ∧
        ∃ u, exec .display t = .next u ∧ u.frames = t.frames ++ [bs])

/-! ## What cannot be observed -/

/-- R27, R52, R261: the bytes of FB that hold no specified value (all of them before INIT, those from SIZE up after it) influence no command. -/
def Obligations.UnspecifiedBytesAreUnobservable : Prop :=
  ∀ (i : Instr) (s t : State) (fb : Memory),
    (∀ a, s.alloc = true → a < s.size → fb.read a = s.fb.read a) → exec i s = .next t →
    ∃ u, exec i { s with fb := fb } = .next u ∧ u = { t with fb := u.fb } ∧
      ∀ a, t.alloc = true → a < t.size → u.fb.read a = t.fb.read a

/-- R29, R80: no command reads what was put out before or what is still to come; it only adds its one response and, for DISPLAY, its bytes. -/
def Obligations.OutputsAreNeverReadBack : Prop :=
  ∀ (i : Instr) (s t : State) (es : List PortEvent) (rs : List Response) (fs : List (List Byte)),
    exec i s = .next t →
    ∃ r fr, t.responses = s.responses ++ [r] ∧ t.frames = s.frames ++ fr ∧
      exec i { s with port := es, responses := rs, frames := fs } =
        .next { t with port := es, responses := rs ++ [r], frames := fs ++ fr }
end

