-- ==== Sys2Proof/Laws/Decode.lean ====
section
/-! SUPPORT. The header word and its fields (R71), the opcode map as a function and back (R76), the modes (R75), and what a successful decoding says (R79). -/

namespace Sys2Proof

/-! ## The header word -/

/-- The bits of a header word (R71). -/
theorem getLsbD_headerWord (o : Byte) (v : Bool) (m : BitVec 3) (i : Nat) :
    (headerWord o v m).getLsbD i =
      if i < 3 then m.getLsbD i else if i = 3 then v else if i < 8 then false
      else o.getLsbD (i - 8) := by
  change BitVec.getLsbD (w := 8 + 4 + 1 + 3) (o ++ 0#4 ++ BitVec.ofBool v ++ m) i = _
  rw [BitVec.getLsbD_append, BitVec.getLsbD_append, BitVec.getLsbD_append]
  rw [BitVec.getLsbD_ofBool, BitVec.getLsbD_zero]
  grind

theorem opcField_headerWord (o : Byte) (v : Bool) (m : BitVec 3) :
    opcField (headerWord o v m) = o := by
  apply BitVec.eq_of_getLsbD_eq
  intro i hi
  rw [opcField, BitVec.getLsbD_extractLsb', getLsbD_headerWord]
  grind

theorem rsvField_headerWord (o : Byte) (v : Bool) (m : BitVec 3) :
    rsvField (headerWord o v m) = 0 := by
  apply BitVec.eq_of_getLsbD_eq
  intro i hi
  rw [rsvField, BitVec.getLsbD_extractLsb', getLsbD_headerWord]
  grind

theorem vField_headerWord (o : Byte) (v : Bool) (m : BitVec 3) :
    vField (headerWord o v m) = v := by
  rw [vField, getLsbD_headerWord]
  rfl

theorem mField_headerWord (o : Byte) (v : Bool) (m : BitVec 3) :
    mField (headerWord o v m) = m := by
  apply BitVec.eq_of_getLsbD_eq
  intro i hi
  rw [mField, BitVec.getLsbD_extractLsb', getLsbD_headerWord]
  grind

/-- A header word with RSV = 0 is put together from its three other fields. -/
theorem headerWord_fields (h : Word) (hr : rsvField h = 0) :
    headerWord (opcField h) (vField h) (mField h) = h := by
  have hr' : ∀ i < 4, h.getLsbD (4 + i) = false := fun i hi => by
    have := congrArg (fun b => b.getLsbD i) hr
    simpa [rsvField, hi] using this
  apply BitVec.eq_of_getLsbD_eq
  intro i hi
  rw [getLsbD_headerWord, opcField, vField, mField, BitVec.getLsbD_extractLsb',
    BitVec.getLsbD_extractLsb']
  by_cases h4 : 4 ≤ i ∧ i < 8
  · have := hr' (i - 4) (by omega)
    rw [Nat.add_sub_cancel' h4.1] at this
    grind
  · grind

/-! ## The opcode map -/

theorem mnemonicOf_opcode (k : Mnemonic) : mnemonicOf k.opcode = some k := by
  cases k <;> decide

theorem opcode_of_mnemonicOf {o : Byte} {k : Mnemonic} (h : mnemonicOf o = some k) :
    k.opcode = o := by
  have := List.find?_some h
  simpa using this

theorem modeOf_bits (m : Mode) : modeOf m.bits = some m := by cases m <;> rfl

theorem bits_of_modeOf {b : BitVec 3} {m : Mode} (h : modeOf b = some m) : m.bits = b := by
  revert h
  revert b
  cases m <;> decide

/-! ## V and M -/

theorem modeOf_eq_some {b : BitVec 3} {m : Mode} : modeOf b = some m ↔ m.bits = b :=
  ⟨bits_of_modeOf, fun h => h ▸ modeOf_bits m⟩

theorem checkMode_eq_ok {b : BitVec 3} {m : Mode} :
    checkMode b = .ok m ↔ m.bits = b := by
  rw [← modeOf_eq_some, checkMode]
  cases modeOf b <;> simp

/-- What an accepted V and M are. -/
theorem checkFields_eq_ok {c : CommandClass} {v : Bool} {b : BitVec 3} {m : Mode} :
    checkFields c v b = .ok m ↔
      m.bits = b ∧ (c = .none → v = false ∧ m = .set) ∧ (c = .m → v = false) := by
  cases c with
  | none =>
    simp only [checkFields]
    by_cases h : v = false ∧ b = 0
    · rw [if_pos h]
      obtain ⟨rfl, rfl⟩ := h
      cases m <;> simp [Mode.bits]
    · rw [if_neg h]
      simp only [reduceCtorEq, false_iff]
      rintro ⟨rfl, h2, -⟩
      obtain ⟨rfl, rfl⟩ := h2 trivial
      exact h ⟨rfl, rfl⟩
  | m =>
    simp only [checkFields]
    cases v
    · rw [if_pos rfl, checkMode_eq_ok]
      simp
    · simp
  | vm =>
    simp only [checkFields]
    rw [checkMode_eq_ok]
    simp

/-! ## Decoding -/

/-- Decoding succeeds exactly when each of its four stages does. -/
theorem decode_eq_ok {p : Packet} {i : Instr} :
    decode p = .ok i ↔
      ∃ k m, mnemonicOf (opcField p.header) = some k ∧ rsvField p.header = 0 ∧
        checkFields k.commandClass (vField p.header) (mField p.header) = .ok m ∧
        assemble k (vField p.header) m p.operands = some i := by
  unfold decode
  cases hk : mnemonicOf (opcField p.header) with
  | none => simp
  | some k =>
    simp only
    by_cases hr : rsvField p.header = 0
    · rw [if_pos hr]
      cases hc : checkFields k.commandClass (vField p.header) (mField p.header) with
      | error e => simp [hc]
      | ok m => cases ha : assemble k (vField p.header) m p.operands <;> simp [hr, hc, ha]
    · rw [if_neg hr]
      simp only [reduceCtorEq, false_iff]
      rintro ⟨_, _, _, h, _⟩
      exact hr h

@[simp] theorem Instr.wellFormed_string (x y : Word) (chs : List Word) (m : Mode) :
    (Instr.string x y chs m).wellFormed = decide (chs.length ≤ 65535) := rfl

/-! ## The formats -/

theorem formatF0_eq_some {i j : Instr} {ops : List Word} :
    formatF0 i ops = some j ↔ ops = [] ∧ i = j := by
  unfold formatF0; split <;> simp_all

theorem formatF1_eq_some {f : Word → Instr} {ops : List Word} {j : Instr} :
    formatF1 f ops = some j ↔ ∃ a, ops = [a] ∧ f a = j := by
  unfold formatF1; split <;> simp_all

theorem formatF2_eq_some {f : Word → Word → Instr} {ops : List Word} {j : Instr} :
    formatF2 f ops = some j ↔ ∃ a b, ops = [a, b] ∧ f a b = j := by
  unfold formatF2; split <;> simp_all

theorem formatF3_eq_some {f : Word → Word → Word → Instr} {ops : List Word} {j : Instr} :
    formatF3 f ops = some j ↔ ∃ a b c, ops = [a, b, c] ∧ f a b c = j := by
  unfold formatF3; split <;> simp_all

theorem formatF4_eq_some {f : Word → Word → Word → Word → Instr} {ops : List Word} {j : Instr} :
    formatF4 f ops = some j ↔ ∃ a b c d, ops = [a, b, c, d] ∧ f a b c d = j := by
  unfold formatF4; split <;> simp_all

theorem formatFS_eq_some {f : Word → Word → List Word → Instr} {ops : List Word} {j : Instr} :
    formatFS f ops = some j ↔
      ∃ a b cs, cs.length ≤ 65535 ∧ ops = a :: b :: BitVec.ofNat 16 cs.length :: cs ∧ f a b cs = j := by
  unfold formatFS
  split
  next a b n cs =>
    split
    next h =>
      have hlt := n.isLt
      have hn : BitVec.ofNat 16 cs.length = n := by rw [h]; simp
      constructor
      · intro e; exact ⟨a, b, cs, by omega, by rw [hn], Option.some.inj e⟩
      · rintro ⟨a', b', cs', -, e, rfl⟩
        simp_all
    next h =>
      simp only [reduceCtorEq, false_iff]
      rintro ⟨a', b', cs', hl, e, -⟩
      simp only [List.cons.injEq] at e
      obtain ⟨-, -, rfl, rfl⟩ := e
      exact h (by rw [BitVec.toNat_ofNat, Nat.mod_eq_of_lt (by omega)])
  next hne =>
    simp only [reduceCtorEq, false_iff]
    rintro ⟨a', b', cs', -, rfl, -⟩
    exact hne _ _ _ _ rfl

/-- Assembling a command from its own operand words gives it back; only the count of a STRING can be lost. -/
theorem assemble_operandWords (i : Instr) (h : i.wellFormed = true) :
    assemble i.mnemonic i.vBit i.modeArg i.operandWords = some i := by
  cases i
  case string x y chs m =>
    simp only [assemble, Instr.mnemonic, Instr.operandWords, Instr.modeArg]
    exact formatFS_eq_some.2 ⟨x, y, chs, by simpa using h, rfl, rfl⟩
  all_goals rfl

/-- What an assembled command is made of. -/
theorem assemble_eq_some {k : Mnemonic} {v : Bool} {m : Mode} {ops : List Word} {i : Instr}
    (h : assemble k v m ops = some i) :
    i.mnemonic = k ∧ i.operandWords = ops ∧ i.wellFormed = true ∧
      i.vBit = (if k.commandClass = .vm then v else false) ∧
      i.modeArg = (if k.commandClass = .none then .set else m) := by
  cases k <;> simp only [assemble, formatF0_eq_some, formatF1_eq_some, formatF2_eq_some,
    formatF3_eq_some, formatF4_eq_some, formatFS_eq_some] at h
  case string =>
    obtain ⟨x, y, chs, hl, rfl, rfl⟩ := h
    exact ⟨rfl, rfl, by simpa using hl, rfl, rfl⟩
  case setfont => obtain ⟨a, rfl, rfl⟩ := h; exact ⟨rfl, rfl, rfl, rfl, rfl⟩
  case clear | clrclip | display => obtain ⟨rfl, rfl⟩ := h; exact ⟨rfl, rfl, rfl, rfl, rfl⟩
  case init | getpixel | setpixel =>
    obtain ⟨a, b, rfl, rfl⟩ := h; exact ⟨rfl, rfl, rfl, rfl, rfl⟩
  case hline | vline | circle | fillcircle | glyph =>
    obtain ⟨a, b, c, rfl, rfl⟩ := h; exact ⟨rfl, rfl, rfl, rfl, rfl⟩
  case setclip | rect | fillrect | line =>
    obtain ⟨a, b, c, d, rfl, rfl⟩ := h; exact ⟨rfl, rfl, rfl, rfl, rfl⟩

/-! ## The fields of the header word as numbers -/

theorem opcField_toNat (h : Word) : (opcField h).toNat = h.toNat / 256 := by
  have := h.isLt
  simp only [opcField, BitVec.extractLsb'_toNat, Nat.shiftRight_eq_div_pow]
  omega

theorem rsvField_toNat (h : Word) : (rsvField h).toNat = h.toNat / 16 % 16 := by
  simp [rsvField, BitVec.extractLsb'_toNat, Nat.shiftRight_eq_div_pow]

theorem mField_toNat (h : Word) : (mField h).toNat = h.toNat % 8 := by
  simp [mField, BitVec.extractLsb'_toNat]

theorem vField_eq_true (h : Word) : vField h = true ↔ h.toNat / 8 % 2 = 1 := by
  simp [vField, BitVec.getLsbD, Nat.testBit_eq_decide_div_mod_eq]

end Sys2Proof
end

