-- ==== Sys2Proof/Laws/Memory.lean ====
section
/-! SUPPORT. FB as data: read after write, read after fill, the canonical form and its extensionality (R27, R48). -/

namespace Sys2Proof.Machine

@[simp] theorem Memory.read_nil (a : Nat) : Memory.read [] a = none := rfl

theorem Memory.read_cons (b : Nat) (u : Byte) (m : Memory) (a : Nat) :
    Memory.read ((b, u) :: m) a = if b = a then some u else Memory.read m a := rfl

/-- A byte below every listed index is not listed. -/
theorem Memory.read_eq_none_of_lt {m : Memory} {a : Nat} (h : ∀ c ∈ m, a < c.1) :
    m.read a = none := by
  induction m with
  | nil => rfl
  | cons c m ih =>
    obtain ⟨b, u⟩ := c
    have hb : a < b := h (b, u) (by simp)
    rw [Memory.read_cons, if_neg (by omega)]
    exact ih fun c hc => h c (by simp [hc])

/-- The value a store leaves, and every other byte as before. -/
theorem Memory.read_write (m : Memory) (a b : Nat) (v : Byte) :
    (m.write a v).read b = if a = b then some v else m.read b := by
  induction m with
  | nil => rfl
  | cons c m ih =>
    obtain ⟨d, u⟩ := c
    simp only [Memory.write]
    grind [Memory.read_cons, Memory.read_nil]

theorem Memory.mem_write {m : Memory} {a : Nat} {v : Byte} {c : Host.Cell}
    (h : c ∈ m.write a v) : c = (a, v) ∨ c ∈ m := by
  induction m with
  | nil => simpa [Memory.write] using h
  | cons d m ih =>
    simp only [Memory.write] at h
    split_ifs at h <;> simp at h <;> grind

/-- Every store keeps the canonical form. -/
theorem Memory.wf_write {m : Memory} (h : m.wf) (a : Nat) (v : Byte) : (m.write a v).wf := by
  induction m with
  | nil => simp [Memory.write, Memory.wf]
  | cons d m ih =>
    obtain ⟨hd, hm⟩ := List.pairwise_cons.1 h
    simp only [Memory.write]
    split_ifs with h1 h2
    · refine List.pairwise_cons.2 ⟨fun c hc => ?_, h⟩
      rcases List.mem_cons.1 hc with rfl | hc
      · exact h1
      · exact lt_trans h1 (hd c hc)
    · refine List.pairwise_cons.2 ⟨fun c hc => ?_, hm⟩
      simpa [h2] using hd c hc
    · refine List.pairwise_cons.2 ⟨fun c hc => ?_, ih hm⟩
      rcases Memory.mem_write hc with rfl | hc
      · simp only; omega
      · exact hd c hc

theorem Memory.read_append (m n : Memory) (a : Nat) :
    Memory.read (m ++ n) a = (Memory.read m a).or (Memory.read n a) := by
  induction m with
  | nil => simp
  | cons c m ih =>
    obtain ⟨b, u⟩ := c
    rw [List.cons_append, Memory.read_cons, Memory.read_cons, ih]
    split <;> simp

theorem Memory.read_filter (m : Memory) (p : Nat → Bool) (a : Nat) :
    Memory.read (m.filter fun c => p c.1) a = if p a then m.read a else none := by
  induction m with
  | nil => simp
  | cons c m ih =>
    obtain ⟨b, u⟩ := c
    by_cases hp : p b = true <;> simp only [List.filter_cons, hp, if_true, Memory.read_cons, ih] <;> grind

theorem Memory.read_run (a n : Nat) (v : Byte) (b : Nat) :
    Memory.read ((List.range' a n).map fun c => (c, v)) b = if a ≤ b ∧ b < a + n then some v else none := by
  induction n generalizing a with
  | zero => simp
  | succ n ih =>
    rw [List.range'_succ, List.map_cons, Memory.read_cons, ih]
    grind

/-- A fill leaves its value at its `n` bytes, and every other byte as before. -/
theorem Memory.read_fill (m : Memory) (a n : Nat) (v : Byte) (b : Nat) :
    (m.fill a n v).read b = if a ≤ b ∧ b < a + n then some v else m.read b := by
  have h1 := Memory.read_filter m (fun c => decide (c < a)) b
  have h2 := Memory.read_filter m (fun c => decide (a + n ≤ c)) b
  rw [Memory.fill, Memory.read_append, Memory.read_append, h1, Memory.read_run, h2]
  grind

/-- A fill keeps the canonical form. -/
theorem Memory.wf_fill {m : Memory} (h : m.wf) (a n : Nat) (v : Byte) : (m.fill a n v).wf := by
  refine List.pairwise_append.2 ⟨List.pairwise_append.2 ⟨h.filter _, ?_, ?_⟩, h.filter _, ?_⟩
  · rw [List.pairwise_map]
    exact List.pairwise_lt_range'
  · intro c hc d hd
    simp only [List.mem_filter, List.mem_map, List.mem_range'_1, decide_eq_true_eq] at hc hd
    obtain ⟨e, he, rfl⟩ := hd
    simp only; omega
  · intro c hc d hd
    simp only [List.mem_append, List.mem_filter, List.mem_map, List.mem_range'_1,
      decide_eq_true_eq] at hc hd
    rcases hc with hc | ⟨e, he, rfl⟩ <;> grind

/-- Equal bytes everywhere are equal memories, in canonical form. -/
theorem Memory.ext_read {m n : Memory} (hm : m.wf) (hn : n.wf) (h : ∀ a, m.read a = n.read a) :
    m = n := by
  induction m generalizing n with
  | nil =>
    cases n with
    | nil => rfl
    | cons c n => obtain ⟨b, u⟩ := c; have := h b; simp [Memory.read_cons] at this
  | cons c m ih =>
    cases n with
    | nil => obtain ⟨b, u⟩ := c; have := h b; simp [Memory.read_cons] at this
    | cons d n =>
      obtain ⟨hc, hm'⟩ := List.pairwise_cons.1 hm
      obtain ⟨hd, hn'⟩ := List.pairwise_cons.1 hn
      obtain ⟨a, u⟩ := c
      obtain ⟨b, w⟩ := d
      have hab : a = b := by
        rcases lt_trichotomy a b with hlt | heq | hgt
        · have := h a
          rw [Memory.read_cons, if_pos rfl, Memory.read_cons, if_neg (by omega),
            Memory.read_eq_none_of_lt fun c hc => lt_trans hlt (hd c hc)] at this
          cases this
        · exact heq
        · have := h b
          rw [Memory.read_cons, if_neg (by omega), Memory.read_cons, if_pos rfl,
            Memory.read_eq_none_of_lt fun e he => lt_trans hgt (hc e he)] at this
          cases this
      subst hab
      have huw : u = w := by have := h a; simpa [Memory.read_cons] using this
      subst huw
      congr 1
      refine ih hm' hn' fun e => ?_
      have := h e
      rw [Memory.read_cons, Memory.read_cons] at this
      by_cases hae : a = e
      · subst hae
        rw [Memory.read_eq_none_of_lt hc, Memory.read_eq_none_of_lt hd]
      · simpa [hae] using this

theorem Memory.wf_foldl_write {m : Memory} (h : m.wf) (as : List Nat) (v : Byte) :
    (as.foldl (fun n b => Memory.write n b v) m).wf := by
  induction as generalizing m with
  | nil => exact h
  | cons a as ih => exact ih (Memory.wf_write h a v)

theorem Memory.read_foldl_write (m : Memory) (as : List Nat) (v : Byte) (b : Nat) :
    Memory.read (as.foldl (fun n b => Memory.write n b v) m) b = if b ∈ as then some v else m.read b := by
  induction as generalizing m with
  | nil => simp
  | cons a as ih =>
    rw [List.foldl_cons, ih, Memory.read_write]
    grind

/-- A fill is the loop of one-byte stores that CLEAR and INIT are written as (R107, R108). -/
theorem Memory.fill_eq_writes {m : Memory} (h : m.wf) (a n : Nat) (v : Byte) :
    m.fill a n v = (List.range' a n).foldl (fun m b => Memory.write m b v) m := by
  refine Memory.ext_read (Memory.wf_fill h a n v) (Memory.wf_foldl_write h _ v) fun b => ?_
  rw [Memory.read_fill, Memory.read_foldl_write]
  simp [List.mem_range'_1]

end Sys2Proof.Machine
end

