-- ==== Sys2Proof/Laws/State.lean ====
section
/-! SUPPORT. One lemma per field of State and update of it, each true by rfl, so that no later proof unfolds a record update. -/

namespace Sys2Proof.Machine

/-! ## State.setClip -/

@[simp] theorem State.setClip_cfg (x y w h : Word) (s : State) : (s.setClip x y w h).cfg = s.cfg := rfl
@[simp] theorem State.setClip_alloc (x y w h : Word) (s : State) : (s.setClip x y w h).alloc = s.alloc := rfl
@[simp] theorem State.setClip_w (x y w h : Word) (s : State) : (s.setClip x y w h).w = s.w := rfl
@[simp] theorem State.setClip_h (x y w h : Word) (s : State) : (s.setClip x y w h).h = s.h := rfl
@[simp] theorem State.setClip_clipX (x y w h : Word) (s : State) : (s.setClip x y w h).clipX = x := rfl
@[simp] theorem State.setClip_clipY (x y w h : Word) (s : State) : (s.setClip x y w h).clipY = y := rfl
@[simp] theorem State.setClip_clipW (x y w h : Word) (s : State) : (s.setClip x y w h).clipW = w := rfl
@[simp] theorem State.setClip_clipH (x y w h : Word) (s : State) : (s.setClip x y w h).clipH = h := rfl
@[simp] theorem State.setClip_fontSel (x y w h : Word) (s : State) : (s.setClip x y w h).fontSel = s.fontSel := rfl
@[simp] theorem State.setClip_fb (x y w h : Word) (s : State) : (s.setClip x y w h).fb = s.fb := rfl
@[simp] theorem State.setClip_port (x y w h : Word) (s : State) : (s.setClip x y w h).port = s.port := rfl
@[simp] theorem State.setClip_responses (x y w h : Word) (s : State) : (s.setClip x y w h).responses = s.responses := rfl
@[simp] theorem State.setClip_frames (x y w h : Word) (s : State) : (s.setClip x y w h).frames = s.frames := rfl

/-! ## State.setFontSel -/

@[simp] theorem State.setFontSel_cfg (f : Word) (s : State) : (s.setFontSel f).cfg = s.cfg := rfl
@[simp] theorem State.setFontSel_alloc (f : Word) (s : State) : (s.setFontSel f).alloc = s.alloc := rfl
@[simp] theorem State.setFontSel_w (f : Word) (s : State) : (s.setFontSel f).w = s.w := rfl
@[simp] theorem State.setFontSel_h (f : Word) (s : State) : (s.setFontSel f).h = s.h := rfl
@[simp] theorem State.setFontSel_clipX (f : Word) (s : State) : (s.setFontSel f).clipX = s.clipX := rfl
@[simp] theorem State.setFontSel_clipY (f : Word) (s : State) : (s.setFontSel f).clipY = s.clipY := rfl
@[simp] theorem State.setFontSel_clipW (f : Word) (s : State) : (s.setFontSel f).clipW = s.clipW := rfl
@[simp] theorem State.setFontSel_clipH (f : Word) (s : State) : (s.setFontSel f).clipH = s.clipH := rfl
@[simp] theorem State.setFontSel_fontSel (f : Word) (s : State) : (s.setFontSel f).fontSel = f := rfl
@[simp] theorem State.setFontSel_fb (f : Word) (s : State) : (s.setFontSel f).fb = s.fb := rfl
@[simp] theorem State.setFontSel_port (f : Word) (s : State) : (s.setFontSel f).port = s.port := rfl
@[simp] theorem State.setFontSel_responses (f : Word) (s : State) : (s.setFontSel f).responses = s.responses := rfl
@[simp] theorem State.setFontSel_frames (f : Word) (s : State) : (s.setFontSel f).frames = s.frames := rfl

/-! ## State.allocate -/

@[simp] theorem State.allocate_cfg (w h : Word) (s : State) : (s.allocate w h).cfg = s.cfg := rfl
@[simp] theorem State.allocate_alloc (w h : Word) (s : State) : (s.allocate w h).alloc = true := rfl
@[simp] theorem State.allocate_w (w h : Word) (s : State) : (s.allocate w h).w = w := rfl
@[simp] theorem State.allocate_h (w h : Word) (s : State) : (s.allocate w h).h = h := rfl
@[simp] theorem State.allocate_clipX (w h : Word) (s : State) : (s.allocate w h).clipX = s.clipX := rfl
@[simp] theorem State.allocate_clipY (w h : Word) (s : State) : (s.allocate w h).clipY = s.clipY := rfl
@[simp] theorem State.allocate_clipW (w h : Word) (s : State) : (s.allocate w h).clipW = s.clipW := rfl
@[simp] theorem State.allocate_clipH (w h : Word) (s : State) : (s.allocate w h).clipH = s.clipH := rfl
@[simp] theorem State.allocate_fontSel (w h : Word) (s : State) : (s.allocate w h).fontSel = s.fontSel := rfl
@[simp] theorem State.allocate_fb (w h : Word) (s : State) : (s.allocate w h).fb = s.fb := rfl
@[simp] theorem State.allocate_port (w h : Word) (s : State) : (s.allocate w h).port = s.port := rfl
@[simp] theorem State.allocate_responses (w h : Word) (s : State) : (s.allocate w h).responses = s.responses := rfl
@[simp] theorem State.allocate_frames (w h : Word) (s : State) : (s.allocate w h).frames = s.frames := rfl

/-! ## State.respond -/

@[simp] theorem State.respond_cfg (v : Int) (s : State) : (s.respond v).cfg = s.cfg := rfl
@[simp] theorem State.respond_alloc (v : Int) (s : State) : (s.respond v).alloc = s.alloc := rfl
@[simp] theorem State.respond_w (v : Int) (s : State) : (s.respond v).w = s.w := rfl
@[simp] theorem State.respond_h (v : Int) (s : State) : (s.respond v).h = s.h := rfl
@[simp] theorem State.respond_clipX (v : Int) (s : State) : (s.respond v).clipX = s.clipX := rfl
@[simp] theorem State.respond_clipY (v : Int) (s : State) : (s.respond v).clipY = s.clipY := rfl
@[simp] theorem State.respond_clipW (v : Int) (s : State) : (s.respond v).clipW = s.clipW := rfl
@[simp] theorem State.respond_clipH (v : Int) (s : State) : (s.respond v).clipH = s.clipH := rfl
@[simp] theorem State.respond_fontSel (v : Int) (s : State) : (s.respond v).fontSel = s.fontSel := rfl
@[simp] theorem State.respond_fb (v : Int) (s : State) : (s.respond v).fb = s.fb := rfl
@[simp] theorem State.respond_port (v : Int) (s : State) : (s.respond v).port = s.port := rfl
@[simp] theorem State.respond_responses (v : Int) (s : State) : (s.respond v).responses = s.responses ++ [⟨.ok, BitVec.ofInt 32 v⟩] := rfl
@[simp] theorem State.respond_frames (v : Int) (s : State) : (s.respond v).frames = s.frames := rfl

/-! ## State.raise -/

@[simp] theorem State.raise_cfg (e : Status) (s : State) : (s.raise e).cfg = s.cfg := rfl
@[simp] theorem State.raise_alloc (e : Status) (s : State) : (s.raise e).alloc = s.alloc := rfl
@[simp] theorem State.raise_w (e : Status) (s : State) : (s.raise e).w = s.w := rfl
@[simp] theorem State.raise_h (e : Status) (s : State) : (s.raise e).h = s.h := rfl
@[simp] theorem State.raise_clipX (e : Status) (s : State) : (s.raise e).clipX = s.clipX := rfl
@[simp] theorem State.raise_clipY (e : Status) (s : State) : (s.raise e).clipY = s.clipY := rfl
@[simp] theorem State.raise_clipW (e : Status) (s : State) : (s.raise e).clipW = s.clipW := rfl
@[simp] theorem State.raise_clipH (e : Status) (s : State) : (s.raise e).clipH = s.clipH := rfl
@[simp] theorem State.raise_fontSel (e : Status) (s : State) : (s.raise e).fontSel = s.fontSel := rfl
@[simp] theorem State.raise_fb (e : Status) (s : State) : (s.raise e).fb = s.fb := rfl
@[simp] theorem State.raise_port (e : Status) (s : State) : (s.raise e).port = s.port := rfl
@[simp] theorem State.raise_responses (e : Status) (s : State) : (s.raise e).responses = s.responses ++ [⟨e, 0⟩] := rfl
@[simp] theorem State.raise_frames (e : Status) (s : State) : (s.raise e).frames = s.frames := rfl

/-! ## State.emitFrame -/

@[simp] theorem State.emitFrame_cfg (bs : List Byte) (s : State) : (s.emitFrame bs).cfg = s.cfg := rfl
@[simp] theorem State.emitFrame_alloc (bs : List Byte) (s : State) : (s.emitFrame bs).alloc = s.alloc := rfl
@[simp] theorem State.emitFrame_w (bs : List Byte) (s : State) : (s.emitFrame bs).w = s.w := rfl
@[simp] theorem State.emitFrame_h (bs : List Byte) (s : State) : (s.emitFrame bs).h = s.h := rfl
@[simp] theorem State.emitFrame_clipX (bs : List Byte) (s : State) : (s.emitFrame bs).clipX = s.clipX := rfl
@[simp] theorem State.emitFrame_clipY (bs : List Byte) (s : State) : (s.emitFrame bs).clipY = s.clipY := rfl
@[simp] theorem State.emitFrame_clipW (bs : List Byte) (s : State) : (s.emitFrame bs).clipW = s.clipW := rfl
@[simp] theorem State.emitFrame_clipH (bs : List Byte) (s : State) : (s.emitFrame bs).clipH = s.clipH := rfl
@[simp] theorem State.emitFrame_fontSel (bs : List Byte) (s : State) : (s.emitFrame bs).fontSel = s.fontSel := rfl
@[simp] theorem State.emitFrame_fb (bs : List Byte) (s : State) : (s.emitFrame bs).fb = s.fb := rfl
@[simp] theorem State.emitFrame_port (bs : List Byte) (s : State) : (s.emitFrame bs).port = s.port := rfl
@[simp] theorem State.emitFrame_responses (bs : List Byte) (s : State) : (s.emitFrame bs).responses = s.responses := rfl
@[simp] theorem State.emitFrame_frames (bs : List Byte) (s : State) : (s.emitFrame bs).frames = s.frames ++ [bs] := rfl

/-! ## State.withPort -/

@[simp] theorem State.withPort_cfg (es : List PortEvent) (s : State) : (s.withPort es).cfg = s.cfg := rfl
@[simp] theorem State.withPort_alloc (es : List PortEvent) (s : State) : (s.withPort es).alloc = s.alloc := rfl
@[simp] theorem State.withPort_w (es : List PortEvent) (s : State) : (s.withPort es).w = s.w := rfl
@[simp] theorem State.withPort_h (es : List PortEvent) (s : State) : (s.withPort es).h = s.h := rfl
@[simp] theorem State.withPort_clipX (es : List PortEvent) (s : State) : (s.withPort es).clipX = s.clipX := rfl
@[simp] theorem State.withPort_clipY (es : List PortEvent) (s : State) : (s.withPort es).clipY = s.clipY := rfl
@[simp] theorem State.withPort_clipW (es : List PortEvent) (s : State) : (s.withPort es).clipW = s.clipW := rfl
@[simp] theorem State.withPort_clipH (es : List PortEvent) (s : State) : (s.withPort es).clipH = s.clipH := rfl
@[simp] theorem State.withPort_fontSel (es : List PortEvent) (s : State) : (s.withPort es).fontSel = s.fontSel := rfl
@[simp] theorem State.withPort_fb (es : List PortEvent) (s : State) : (s.withPort es).fb = s.fb := rfl
@[simp] theorem State.withPort_port (es : List PortEvent) (s : State) : (s.withPort es).port = es := rfl
@[simp] theorem State.withPort_responses (es : List PortEvent) (s : State) : (s.withPort es).responses = s.responses := rfl
@[simp] theorem State.withPort_frames (es : List PortEvent) (s : State) : (s.withPort es).frames = s.frames := rfl

/-! ## State.resetEvent -/

@[simp] theorem State.resetEvent_cfg (s : State) : s.resetEvent.cfg = s.cfg := rfl
@[simp] theorem State.resetEvent_alloc (s : State) : s.resetEvent.alloc = false := rfl
@[simp] theorem State.resetEvent_w (s : State) : s.resetEvent.w = 0 := rfl
@[simp] theorem State.resetEvent_h (s : State) : s.resetEvent.h = 0 := rfl
@[simp] theorem State.resetEvent_clipX (s : State) : s.resetEvent.clipX = 0 := rfl
@[simp] theorem State.resetEvent_clipY (s : State) : s.resetEvent.clipY = 0 := rfl
@[simp] theorem State.resetEvent_clipW (s : State) : s.resetEvent.clipW = 0 := rfl
@[simp] theorem State.resetEvent_clipH (s : State) : s.resetEvent.clipH = 0 := rfl
@[simp] theorem State.resetEvent_fontSel (s : State) : s.resetEvent.fontSel = fontNone := rfl
@[simp] theorem State.resetEvent_fb (s : State) : s.resetEvent.fb = [] := rfl
@[simp] theorem State.resetEvent_port (s : State) : s.resetEvent.port = s.port := rfl
@[simp] theorem State.resetEvent_responses (s : State) : s.resetEvent.responses = s.responses := rfl
@[simp] theorem State.resetEvent_frames (s : State) : s.resetEvent.frames = s.frames := rfl

/-! ## State.resetWith -/

@[simp] theorem State.resetWith_cfg (c : Config) : (State.resetWith c).cfg = c := rfl
@[simp] theorem State.resetWith_alloc (c : Config) : (State.resetWith c).alloc = false := rfl
@[simp] theorem State.resetWith_w (c : Config) : (State.resetWith c).w = 0 := rfl
@[simp] theorem State.resetWith_h (c : Config) : (State.resetWith c).h = 0 := rfl
@[simp] theorem State.resetWith_clipX (c : Config) : (State.resetWith c).clipX = 0 := rfl
@[simp] theorem State.resetWith_clipY (c : Config) : (State.resetWith c).clipY = 0 := rfl
@[simp] theorem State.resetWith_clipW (c : Config) : (State.resetWith c).clipW = 0 := rfl
@[simp] theorem State.resetWith_clipH (c : Config) : (State.resetWith c).clipH = 0 := rfl
@[simp] theorem State.resetWith_fontSel (c : Config) : (State.resetWith c).fontSel = fontNone := rfl
@[simp] theorem State.resetWith_fb (c : Config) : (State.resetWith c).fb = [] := rfl
@[simp] theorem State.resetWith_port (c : Config) : (State.resetWith c).port = [] := rfl
@[simp] theorem State.resetWith_responses (c : Config) : (State.resetWith c).responses = [] := rfl
@[simp] theorem State.resetWith_frames (c : Config) : (State.resetWith c).frames = [] := rfl

end Sys2Proof.Machine
end

