-- ==== Sys2Proof/Laws/Ops.lean ====
section
/-! SUPPORT. One lemma per shared operation that says everything it can do: sequencing, the gates and the geometry (R42 to R44), the mux (R100, R104), pixel read and write (R101, R102), and `plot`, whose effect is the multiplicity law (R109). -/

namespace Sys2Proof.Machine

/-! ## Sequencing -/

@[simp] theorem andThen_next {α β : Type} (a : α) (f : α → Result β) :
    andThen (.next a) f = f a := rfl

@[simp] theorem andThen_fault {α β : Type} (e : Fault) (f : α → Result β) :
    andThen (.fault e) f = .fault e := rfl

@[simp] theorem andThen_refused {α β : Type} (e : Refusal) (f : α → Result β) :
    andThen (.refused e) f = .refused e := rfl

/-- A sequence answers next exactly when both of its parts do. -/
theorem andThen_eq_next {α β : Type} {r : Result α} {f : α → Result β} {b : β} :
    andThen r f = .next b ↔ ∃ a, r = .next a ∧ f a = .next b := by
  cases r <;> simp

theorem whenAllocated_of_alloc {body : State → Result State} {s : State} (h : s.alloc = true) :
    whenAllocated body s = body s := by simp [whenAllocated, h]

theorem whenAllocated_of_not_alloc {body : State → Result State} {s : State} (h : s.alloc = false) :
    whenAllocated body s = .next (s.raise .errState) := by simp [whenAllocated, h]

/-! ## Accesses to FB -/

theorem memRead_eq_next {a : Nat} {s : State} {b : Byte} :
    memRead a s = .next b ↔ a < s.cfg.memBytes ∧ s.fb.read a = some b := by
  unfold memRead
  split
  · cases h : s.fb.read a <;> simp [*]
  · simp [*]

theorem memWrite_eq_next {a : Nat} {v : Byte} {s t : State} :
    memWrite a v s = .next t ↔ a < s.cfg.memBytes ∧ t = { s with fb := s.fb.write a v } := by
  unfold memWrite
  split <;> simp [*, eq_comm]

theorem memFill_eq_next {a n : Nat} {v : Byte} {s t : State} :
    memFill a n v s = .next t ↔
      a + n ≤ s.cfg.memBytes ∧ t = { s with fb := s.fb.fill a n v } := by
  unfold memFill
  split <;> simp [*, eq_comm]

/-- The bytes a run of reads gives, each the byte its index holds. -/
theorem memReadAll_eq_next {as : List Nat} {s : State} {bs : List Byte} :
    memReadAll as s = .next bs ↔
      (∀ a ∈ as, a < s.cfg.memBytes) ∧ as.map s.fb.read = bs.map some := by
  induction as generalizing bs with
  | nil => cases bs <;> simp [memReadAll]
  | cons a as ih =>
    simp only [memReadAll, andThen_eq_next, memRead_eq_next, ih]
    cases bs <;> grind

/-! ## Bits of a byte -/

theorem getLsbD_setBit (b : Byte) (k j : Nat) (n : Bool) (hk : k < 8) :
    (setBit b k n).getLsbD j = if j = k then n else b.getLsbD j := by
  unfold setBit
  cases n <;> simp only [Bool.false_eq_true, if_true, if_false, BitVec.getLsbD_or,
    BitVec.getLsbD_and, BitVec.getLsbD_not, BitVec.getLsbD_twoPow] <;> by_cases hj : j < 8 <;> by_cases e : j = k <;>
    simp_all [BitVec.getLsbD_of_ge] <;> grind

/-- A byte is its eight bits. -/
theorem byte_ext {b c : Byte} (h : ∀ k < 8, b.getLsbD k = c.getLsbD k) : b = c :=
  BitVec.eq_of_getLsbD_eq h

theorem rowBit_lt (y : Int) : rowBit y < 8 := Nat.mod_lt _ (by decide)

/-! ## Geometry -/

/-- Two byte positions agree only in the same column and page. -/
theorem column_page_unique {x x' p q P : Nat} (hp : p < P) (hq : q < P)
    (h : x * P + p = x' * P + q) : x = x' ∧ p = q := by
  have hP : 0 < P := by omega
  have hx : x = x' := by
    have h1 : (x * P + p) / P = x := by
      rw [Nat.mul_comm, Nat.mul_add_div hP, Nat.div_eq_of_lt hp, Nat.add_zero]
    have h2 : (x' * P + q) / P = x' := by
      rw [Nat.mul_comm, Nat.mul_add_div hP, Nat.div_eq_of_lt hq, Nat.add_zero]
    rw [← h1, h, h2]
  subst hx
  exact ⟨rfl, by omega⟩

/-- The page of a row in bounds is one of the column's pages. -/
theorem page_lt {s : State} {y : Int} (h0 : 0 ≤ y) (h1 : y < s.h.toNat) :
    y.toNat / 8 < s.pages := by
  unfold State.pages pagesOf
  omega

/-- R43: the address of a pixel in bounds is that of a pixel byte. -/
theorem addr_bounds {s : State} {x y : Int} (h : InBounds s x y) :
    1 ≤ addr s x y ∧ addr s x y < s.size := by
  obtain ⟨⟨hx0, hx1⟩, hy0, hy1⟩ := h
  have hp := page_lt hy0 hy1
  have hx : x.toNat + 1 ≤ s.w.toNat := by omega
  have hm := Nat.mul_le_mul_right s.pages hx
  unfold addr State.size storageSize headerSize
  change _ ∧ _ < 1 + s.w.toNat * s.pages
  rw [Nat.add_mul, Nat.one_mul] at hm
  omega

/-- R43, R44: a byte and a bit of it belong to one pixel. -/
theorem addr_rowBit_inj {s : State} {x y x' y' : Int} (h : InBounds s x y) (h' : InBounds s x' y')
    (ha : addr s x y = addr s x' y') (hb : rowBit y = rowBit y') : x = x' ∧ y = y' := by
  obtain ⟨⟨hx0, hx1⟩, hy0, hy1⟩ := h
  obtain ⟨⟨hx0', hx1'⟩, hy0', hy1'⟩ := h'
  unfold addr at ha
  obtain ⟨h1, h2⟩ := column_page_unique (page_lt hy0 hy1) (page_lt hy0' hy1') (Nat.add_right_cancel ha)
  unfold rowBit at hb
  omega

theorem storeAddr_eq_some {s : State} {x y : Int} {a : Nat} :
    storeAddr s x y = some a ↔ (InBounds s x y ∧ InClip s x y) ∧ addr s x y = a := by
  unfold storeAddr
  split
  next h => exact ⟨fun e => ⟨h, Option.some.inj e⟩, fun e => congrArg some e.2⟩
  next h => exact ⟨fun e => (by cases e), fun e => absurd e.1 h⟩

theorem storeAddr_eq_none {s : State} {x y : Int} :
    storeAddr s x y = none ↔ ¬(InBounds s x y ∧ InClip s x y) := by
  unfold storeAddr
  split <;> simp [*]

/-! ## The mux -/

/-- Under every mode and value but (XOR, 1), writing twice is writing once; under (XOR, 1) it undoes (R104). -/
theorem merge_merge (m : Mode) (v e : Bool) :
    merge m v (merge m v e) = if m = .xor ∧ v = true then e else merge m v e := by
  cases m <;> cases v <;> cases e <;> rfl

/-- Writing a pixel n times with one V and one M (R104, R109). -/
theorem merge_iterate (m : Mode) (v e : Bool) (n : Nat) :
    (merge m v)^[n] e =
      if n = 0 then e
      else if m = .xor ∧ v = true then (if n % 2 = 0 then e else !e)
      else merge m v e := by
  induction n with
  | zero => simp
  | succ n ih =>
    rw [Function.iterate_succ', Function.comp_apply, ih]
    by_cases hx : m = .xor ∧ v = true
    · obtain ⟨rfl, rfl⟩ := hx
      rcases Nat.eq_zero_or_pos n with rfl | hn
      · simp [merge]
      · have : n ≠ 0 := by omega
        rcases Nat.mod_two_eq_zero_or_one n with h | h <;> simp [merge, this, Nat.add_mod, h]
    · by_cases hn : n = 0
      · simp [hn, hx]
      · simp [hn, hx, merge_merge]

/-! ## Pixels -/

/-- The bit `k` of the byte at index `a`; none where the byte holds no value. -/
def Memory.bitAt (m : Memory) (a k : Nat) : Option Bool := (m.read a).map fun b => b.getLsbD k

/-- Equal bits everywhere are equal memories, in canonical form. -/
theorem Memory.ext_bitAt {m n : Memory} (hm : m.wf) (hn : n.wf)
    (h : ∀ a, ∀ k < 8, m.bitAt a k = n.bitAt a k) : m = n := by
  refine Memory.ext_read hm hn fun a => ?_
  have h0 := h a 0 (by decide)
  unfold Memory.bitAt at h h0
  cases hma : m.read a <;> cases hna : n.read a <;> simp [hma, hna] at h0 ⊢
  refine byte_ext fun k hk => ?_
  have := h a k hk
  rw [hma, hna] at this
  simpa using this

/-- FB with bit `k` of byte `a` merged with `v`, where that byte holds a value. -/
def Memory.mergeBit (m : Memory) (a k : Nat) (md : Mode) (v : Bool) : Memory :=
  match m.read a with
  | some b => m.write a (setBit b k (merge md v (b.getLsbD k)))
  | none => m

theorem Memory.wf_mergeBit {m : Memory} (h : m.wf) (a k : Nat) (md : Mode) (v : Bool) :
    (m.mergeBit a k md v).wf := by
  unfold Memory.mergeBit
  split
  · exact Memory.wf_write h _ _
  · exact h

theorem Memory.isSome_read_mergeBit (m : Memory) (a k : Nat) (md : Mode) (v : Bool) (b : Nat) :
    ((m.mergeBit a k md v).read b).isSome = (m.read b).isSome := by
  unfold Memory.mergeBit
  split
  · rw [Memory.read_write]; grind
  · rfl

theorem Memory.read_mergeBit_of_ne (m : Memory) {a b : Nat} (h : a ≠ b) (k : Nat) (md : Mode)
    (v : Bool) : (m.mergeBit a k md v).read b = m.read b := by
  unfold Memory.mergeBit
  split
  · rw [Memory.read_write, if_neg h]
  · rfl

theorem Memory.bitAt_mergeBit (m : Memory) (a k : Nat) (md : Mode) (v : Bool) (b j : Nat)
    (hk : k < 8) :
    (m.mergeBit a k md v).bitAt b j =
      if a = b ∧ k = j then (m.bitAt b j).map (merge md v) else m.bitAt b j := by
  unfold Memory.mergeBit Memory.bitAt
  split
  next b' h =>
    rw [Memory.read_write]
    by_cases hab : a = b
    · subst hab
      simp only [h, if_true, Option.map_some, getLsbD_setBit _ _ _ _ hk, true_and]
      by_cases hj : k = j
      · simp [hj]
      · rw [if_neg (Ne.symm hj), if_neg hj]
    · simp [hab]
  next h =>
    by_cases hab : a = b
    · subst hab; simp [h]
    · simp [hab]

/-- What `plot` does to FB: each pixel that passes the gates merges its bit. -/
def plotMemory (s : State) (v : Bool) (m : Mode) : List Pixel → Memory → Memory
  | [], fb => fb
  | p :: ps, fb =>
    plotMemory s v m ps
      (match storeAddr s p.1 p.2 with
       | some a => fb.mergeBit a (rowBit p.2) m v
       | none => fb)

/-- How often a list of pixels writes bit `k` of byte `a`. -/
def hits (s : State) (a k : Nat) (ps : List Pixel) : Nat :=
  ps.countP fun p => decide (storeAddr s p.1 p.2 = some a ∧ rowBit p.2 = k)

theorem plotMemory_wf {s : State} {v : Bool} {m : Mode} (ps : List Pixel) {fb : Memory}
    (h : fb.wf) : (plotMemory s v m ps fb).wf := by
  induction ps generalizing fb with
  | nil => exact h
  | cons p ps ih =>
    refine ih ?_
    split
    · exact Memory.wf_mergeBit h _ _ _ _
    · exact h

theorem plotMemory_isSome {s : State} {v : Bool} {m : Mode} (ps : List Pixel) (fb : Memory)
    (a : Nat) : ((plotMemory s v m ps fb).read a).isSome = (fb.read a).isSome := by
  induction ps generalizing fb with
  | nil => rfl
  | cons p ps ih =>
    rw [plotMemory, ih]
    split
    · exact Memory.isSome_read_mergeBit _ _ _ _ _ _
    · rfl

/-- The multiplicity law, bit by bit (R109). -/
theorem plotMemory_bitAt {s : State} {v : Bool} {m : Mode} (ps : List Pixel) (fb : Memory)
    (a k : Nat) :
    (plotMemory s v m ps fb).bitAt a k = (fb.bitAt a k).map ((merge m v)^[hits s a k ps]) := by
  induction ps generalizing fb with
  | nil => simp [plotMemory, hits]
  | cons p ps ih =>
    rw [plotMemory, ih, hits, hits, List.countP_cons]
    cases hst : storeAddr s p.1 p.2 with
    | none => simp
    | some b =>
      simp only [Memory.bitAt_mergeBit _ _ _ _ _ _ _ (rowBit_lt _)]
      by_cases h : b = a ∧ rowBit p.2 = k
      · simp only [h, and_self, if_true, Option.map_map, decide_true, Function.iterate_succ]
      · have h' : ¬(some b = some a ∧ rowBit p.2 = k) := by simpa using h
        simp only [h, h', if_false, decide_false, Bool.false_eq_true, Nat.add_zero]

/-- A byte that no pixel of the list stores to is as before. -/
theorem plotMemory_read_of_not_stored {s : State} {v : Bool} {m : Mode} (ps : List Pixel)
    (fb : Memory) (a : Nat) (h : ∀ p ∈ ps, storeAddr s p.1 p.2 ≠ some a) :
    (plotMemory s v m ps fb).read a = fb.read a := by
  induction ps generalizing fb with
  | nil => rfl
  | cons p ps ih =>
    rw [plotMemory, ih _ fun q hq => h q (by simp [hq])]
    split
    next b hb =>
      exact Memory.read_mergeBit_of_ne _ (fun e => h p (by simp) (by rw [hb, e])) _ _ _
    next => rfl

/-- The storage in use holds values and fits: all that pixel accesses need. -/
def State.Drawable (s : State) : Prop :=
  (∀ a, a < s.size → (s.fb.read a).isSome = true) ∧ s.size ≤ s.cfg.memBytes

theorem State.Inv.drawable {s : State} (h : s.Inv) (ha : s.alloc = true) : s.Drawable :=
  ⟨fun a => (h.listed ha a).2, h.fits ha⟩

/-- One pixel write: the previous bit, and its bit of FB merged; nothing where a gate blocks it. -/
theorem pixWrite_eq {s : State} (hs : s.Drawable) (x y : Int) (v : Bool) (m : Mode) :
    pixWrite x y v m s =
      match storeAddr s x y with
      | none => .next (false, s)
      | some a =>
        .next ((s.fb.bitAt a (rowBit y)).getD false,
          { s with fb := s.fb.mergeBit a (rowBit y) m v }) := by
  unfold pixWrite
  cases hst : storeAddr s x y with
  | none => rfl
  | some a =>
    obtain ⟨⟨hb, _⟩, rfl⟩ := storeAddr_eq_some.1 hst
    have hlt := (addr_bounds hb).2
    obtain ⟨b, hr⟩ := Option.isSome_iff_exists.1 (hs.1 _ hlt)
    have hm : addr s x y < s.cfg.memBytes := lt_of_lt_of_le hlt hs.2
    simp [memRead, memWrite, hm, hr, Memory.bitAt, Memory.mergeBit]

/-- A pixel read: the stored bit in bounds, 0 elsewhere (R101). -/
theorem pixRead_eq {s : State} (hs : s.Drawable) (x y : Int) :
    pixRead x y s =
      .next (if InBounds s x y then (s.fb.bitAt (addr s x y) (rowBit y)).getD false else false) := by
  unfold pixRead
  split
  next hb =>
    have hlt := (addr_bounds hb).2
    obtain ⟨b, hr⟩ := Option.isSome_iff_exists.1 (hs.1 _ hlt)
    have hm : addr s x y < s.cfg.memBytes := lt_of_lt_of_le hlt hs.2
    simp [memRead, hm, hr, Memory.bitAt]
  next => rfl

/-- The effect of `plot`: only FB changes, as `plotMemory` says. -/
theorem plot_eq (ps : List Pixel) (v : Bool) (m : Mode) {s : State} (hs : s.Drawable) :
    plot ps v m s = .next { s with fb := plotMemory s v m ps s.fb } := by
  suffices H : ∀ fb : Memory, (∀ a, a < s.size → (fb.read a).isSome = true) →
      plot ps v m { s with fb := fb } = .next { s with fb := plotMemory s v m ps fb } from
    H s.fb hs.1
  induction ps with
  | nil => intro fb _; rfl
  | cons p ps ih =>
    intro fb hfb
    have hd : State.Drawable { s with fb := fb } := ⟨hfb, hs.2⟩
    rw [plot, pixWrite_eq hd, plotMemory]
    change andThen (match storeAddr s p.1 p.2 with
      | none => _
      | some a => _) _ = _
    cases hst : storeAddr s p.1 p.2 with
    | none => simpa using ih fb hfb
    | some a =>
      simpa using ih _ fun b hb => by
        rw [Memory.isSome_read_mergeBit]
        exact hfb b hb

/-- A drawing command on an allocated state: FB as `plotMemory` says, one response (OK, 0). -/
theorem draw_eq (ps : List Pixel) (v : Bool) (m : Mode) {s : State} (ha : s.alloc = true)
    (hs : s.Drawable) :
    draw ps v m s = .next (({ s with fb := plotMemory s v m ps s.fb } : State).respond 0) := by
  rw [draw, whenAllocated_of_alloc ha, plot_eq ps v m hs]
  rfl

/-- How often a list writes the bit of a pixel in bounds: as often as the pixel stands in it, if the clip admits it. -/
theorem hits_pixel {s : State} {x y : Int} (hb : InBounds s x y) (ps : List Pixel) :
    hits s (addr s x y) (rowBit y) ps = if InClip s x y then ps.count (x, y) else 0 := by
  unfold hits
  by_cases hc : InClip s x y
  · rw [if_pos hc, List.count]
    refine List.countP_congr fun p _ => ?_
    rw [decide_eq_true_iff, beq_iff_eq, storeAddr_eq_some]
    constructor
    · rintro ⟨⟨⟨h1, _⟩, h2⟩, h3⟩
      obtain ⟨h4, h5⟩ := addr_rowBit_inj h1 hb h2 h3
      exact Prod.ext h4 h5
    · rintro rfl
      exact ⟨⟨⟨hb, hc⟩, rfl⟩, rfl⟩
  · rw [if_neg hc, List.countP_eq_zero]
    intro p _
    rw [decide_eq_true_iff, storeAddr_eq_some]
    rintro ⟨⟨⟨h1, h0⟩, h2⟩, h3⟩
    obtain ⟨h4, h5⟩ := addr_rowBit_inj h1 hb h2 h3
    rw [h4, h5] at h0
    exact hc h0

end Sys2Proof.Machine
end

