-- ==== Sys2Proof/Laws/Draw.lean ====
section
/-! SUPPORT. Drawing as a list of pixels: `plot` of lists one after the other, the pixels of a glyph and of a string (R195, R197), and the two inversions of `plot`: where it completes, and what it has then done. -/

namespace Sys2Proof.Machine

theorem andThen_assoc {α β γ : Type} (r : Result α) (f : α → Result β) (g : β → Result γ) :
    andThen (andThen r f) g = andThen r fun a => andThen (f a) g := by
  cases r <;> rfl

/-- Writing two lists of pixels one after the other is writing their concatenation. -/
theorem plot_append (ps qs : List Pixel) (v : Bool) (m : Mode) (s : State) :
    plot (ps ++ qs) v m s = andThen (plot ps v m s) fun t => plot qs v m t := by
  induction ps generalizing s with
  | nil => rfl
  | cons p ps ih =>
    simp only [List.cons_append, plot, andThen_assoc]
    congr 1
    funext r
    exact ih r.2

/-- What a pixel write that completes has done, from any state. -/
theorem pixWrite_next {x y : Int} {v : Bool} {m : Mode} {s : State} {r : Bool × State}
    (h : pixWrite x y v m s = .next r) :
    r.2 = { s with fb := (match storeAddr s x y with
      | some a => s.fb.mergeBit a (rowBit y) m v
      | none => s.fb) } := by
  unfold pixWrite at h
  cases hst : storeAddr s x y with
  | none => rw [hst] at h; cases h; rfl
  | some a =>
    rw [hst] at h
    obtain ⟨b, hb, t, ht, h⟩ := by simpa only [andThen_eq_next] using h
    cases h
    obtain ⟨_, hr⟩ := memRead_eq_next.1 hb
    obtain ⟨_, rfl⟩ := memWrite_eq_next.1 ht
    simp [Memory.mergeBit, hr]

/-- What a `plot` that completes has done, from any state. -/
theorem plot_next {ps : List Pixel} {v : Bool} {m : Mode} {s t : State}
    (h : plot ps v m s = .next t) : t = { s with fb := plotMemory s v m ps s.fb } := by
  suffices H : ∀ fb : Memory, plot ps v m { s with fb := fb } = .next t →
      t = { s with fb := plotMemory s v m ps fb } from H s.fb h
  clear h
  induction ps with
  | nil => intro fb h; cases h; rfl
  | cons p ps ih =>
    intro fb h
    obtain ⟨r, hr, h⟩ := andThen_eq_next.1 h
    have h2 := pixWrite_next hr
    rw [h2] at h
    exact ih _ h

/-! ## Text -/

/-- The pixels of GlyphDraw for a code in a font, if any (R197). -/
def glyphList (font : Option Font) (ch : Nat) (x y : Int) : List Pixel :=
  match font with
  | none => []
  | some f =>
    match fontGlyph f ch with
    | none => []
    | some g => glyphPixels f g x y

/-- The advance of a code in a font, if any (R197). -/
def glyphAdvance (font : Option Font) (ch : Nat) : Int :=
  match font with
  | none => 0
  | some f =>
    match fontGlyph f ch with
    | none => 0
    | some g => g.xAdvance

/-- GlyphDraw is one `plot` of the glyph's pixels. -/
theorem glyphDraw_eq {font : Option Font} {s : State} (hf : activeFont s = .next font)
    (x y : Int) (ch : Nat) (m : Mode) :
    glyphDraw x y ch m s =
      andThen (plot (glyphList font ch x y) true m s) fun t => .next (glyphAdvance font ch, t) := by
  unfold glyphDraw
  rw [hf]
  cases font with
  | none => rfl
  | some f =>
    simp only [andThen_next, glyphList, glyphAdvance]
    cases fontGlyph f ch <;> rfl

/-- The pixels of STRING from cursor `c` (R195). -/
def stringList (font : Option Font) (y : Int) : List Word → Int → List Pixel
  | [], _ => []
  | ch :: chs, c =>
    glyphList font (zext16 ch) c y ++ stringList font y chs (c + glyphAdvance font (zext16 ch))

/-- The final cursor of STRING from cursor `c` (R195). -/
def stringCursor (font : Option Font) : List Word → Int → Int
  | [], c => c
  | ch :: chs, c => stringCursor font chs (c + glyphAdvance font (zext16 ch))

/-- STRING is one `plot` of its glyphs' pixels. -/
theorem stringDraw_eq {font : Option Font} {s : State} (hf : activeFont s = .next font)
    (y : Int) (m : Mode) (chs : List Word) (c : Int) :
    stringDraw y m chs c s =
      andThen (plot (stringList font y chs c) true m s)
        fun t => .next (stringCursor font chs c, t) := by
  induction chs generalizing c s with
  | nil => rfl
  | cons ch chs ih =>
    simp only [stringDraw, glyphDraw_eq hf, stringList, stringCursor, plot_append, andThen_assoc,
      andThen_next]
    cases hp : plot (glyphList font (zext16 ch) c y) true m s with
    | next t =>
      have ht : activeFont t = .next font := by rw [plot_next hp]; exact hf
      simp only [andThen_next]
      exact ih ht _
    | fault e => rfl
    | refused e => rfl

/-- A font is active, or none is: FONT_SEL selects an attached table, and the tables are well formed. -/
theorem activeFont_eq {s : State} (hs : s.fontSel = fontNone ∨ s.fontSel.toNat < s.cfg.nFonts)
    (hf : FontsWellFormed s.cfg) :
    activeFont s =
      .next (if s.fontSel = fontNone then none else s.cfg.fonts[s.fontSel.toNat]?) := by
  unfold activeFont
  split
  next => rfl
  next hne =>
    have hlt := hs.resolve_left hne
    have he : s.cfg.fonts[s.fontSel.toNat]? = some s.cfg.fonts[s.fontSel.toNat] :=
      List.getElem?_eq_getElem hlt
    rw [he]
    simp only
    rw [if_pos (hf _ (List.getElem_mem hlt))]

end Sys2Proof.Machine
end

