-- ==== Sys2Proof/Laws/Exec.lean ====
section
/-! SUPPORT. What a command that completes has done, once for all commands: an error response and nothing else, a successful INIT, or the effect of its own rule and one response OK. -/

namespace Sys2Proof.Machine

/-- The state after a successful INIT, before its response (R108). -/
def initState (w h : Word) (s : State) : State :=
  (({ s with fb := (s.fb.write 0 s.cfg.hdrValue).fill headerSize (w.toNat * pagesOf h.toNat) 0 }
    : State).allocate w h).setClip 0 0 w h

/-- The effects of the commands but INIT on an allocated state, before the response `v`. -/
inductive Effect : Instr → State → State → Int → Prop where
  | clear {s : State} : s.size ≤ s.cfg.memBytes →
      Effect .clear s { s with fb := s.fb.fill headerSize (s.size - headerSize) 0 } 0
  | getpixel {s : State} {x y : Word} {b : Bool} : pixRead (sext16 x) (sext16 y) s = .next b →
      Effect (.getpixel x y) s s (bitValue b)
  | setpixel {s : State} {x y : Word} {v : Bool} {m : Mode} {r : Bool × State} :
      pixWrite (sext16 x) (sext16 y) v m s = .next r →
      Effect (.setpixel x y v m) s r.2 (bitValue r.1)
  | setclip {s : State} {x y w h : Word} : Effect (.setclip x y w h) s (s.setClip x y w h) 0
  | clrclip {s : State} : Effect .clrclip s (s.setClip 0 0 s.w s.h) 0
  | hline {s t : State} {x y w : Word} {v : Bool} {m : Mode} :
      plot (hlinePixels (sext16 x) (sext16 y) (sext16 w)) v m s = .next t →
      Effect (.hline x y w v m) s t 0
  | vline {s t : State} {x y h : Word} {v : Bool} {m : Mode} :
      plot (vlinePixels (sext16 x) (sext16 y) (sext16 h)) v m s = .next t →
      Effect (.vline x y h v m) s t 0
  | rect {s t : State} {x y w h : Word} {v : Bool} {m : Mode} :
      plot (rectPixels (sext16 x) (sext16 y) (sext16 w) (sext16 h)) v m s = .next t →
      Effect (.rect x y w h v m) s t 0
  | fillrect {s t : State} {x y w h : Word} {v : Bool} {m : Mode} :
      plot (fillrectPixels (sext16 x) (sext16 y) (sext16 w) (sext16 h)) v m s = .next t →
      Effect (.fillrect x y w h v m) s t 0
  | line {s t : State} {x0 y0 x1 y1 : Word} {v : Bool} {m : Mode} :
      plot (linePixels (sext16 x0) (sext16 y0) (sext16 x1) (sext16 y1)) v m s = .next t →
      Effect (.line x0 y0 x1 y1 v m) s t 0
  | circle {s t : State} {cx cy r : Word} {v : Bool} {m : Mode} :
      plot (circlePixels (sext16 cx) (sext16 cy) (sext16 r)) v m s = .next t →
      Effect (.circle cx cy r v m) s t 0
  | fillcircle {s t : State} {cx cy r : Word} {v : Bool} {m : Mode} :
      plot (fillcirclePixels (sext16 cx) (sext16 cy) (sext16 r)) v m s = .next t →
      Effect (.fillcircle cx cy r v m) s t 0
  | setfont {s : State} {idx : Word} :
      Effect (.setfont idx) s (s.setFontSel (if zext16 idx < s.cfg.nFonts then idx else fontNone)) 0
  | glyph {s t : State} {x y ch : Word} {m : Mode} {v : Int} :
      glyphDraw (sext16 x) (sext16 y) (zext16 ch) m s = .next (v, t) →
      Effect (.glyph x y ch m) s t v
  | string {s t : State} {x y : Word} {chs : List Word} {m : Mode} {v : Int} :
      stringDraw (sext16 y) m chs (sext16 x) s = .next (v, t) →
      Effect (.string x y chs m) s t v
  | display {s : State} {bs : List Byte} : memReadAll (List.range s.size) s = .next bs →
      Effect .display s (s.emitFrame bs) 0

/-- The three ways a command completes. -/
inductive Completion (i : Instr) (s t : State) : Prop where
  /-- The state check fails (R234). -/
  | stateError : (i.mnemonic = .init ↔ s.alloc = true) → t = s.raise .errState → Completion i s t
  /-- The size check of INIT fails (R232). -/
  | allocError {w h : Word} : i = .init w h → s.alloc = false → ¬InitFits w h s →
      t = s.raise .errAlloc → Completion i s t
  /-- INIT succeeds (R108). -/
  | init {w h : Word} : i = .init w h → s.alloc = false → InitFits w h s →
      t = (initState w h s).respond 0 → Completion i s t
  /-- Any other command runs its own rule (R234 (c)). -/
  | effect {u : State} {v : Int} : i.mnemonic ≠ .init → s.alloc = true → Effect i s u v →
      t = u.respond v → Completion i s t

theorem draw_next {ps : List Pixel} {v : Bool} {m : Mode} {s t : State}
    (ha : s.alloc = true) (h : draw ps v m s = .next t) :
    ∃ u, plot ps v m s = .next u ∧ t = u.respond 0 := by
  rw [draw, whenAllocated_of_alloc ha, andThen_eq_next] at h
  obtain ⟨u, hu, h⟩ := h
  cases h
  exact ⟨u, hu, rfl⟩

/-- Every command but INIT begins with the state check. -/
theorem exec_whenAllocated {i : Instr} (hi : i.mnemonic ≠ .init) :
    ∃ body, ∀ s, exec i s = whenAllocated body s := by
  cases i
  case init => exact absurd rfl hi
  all_goals exact ⟨_, fun _ => rfl⟩

/-- R234 (b). -/
theorem exec_of_not_alloc {i : Instr} (hi : i.mnemonic ≠ .init) {s : State}
    (ha : s.alloc = false) : exec i s = .next (s.raise .errState) := by
  obtain ⟨body, hb⟩ := exec_whenAllocated hi
  rw [hb, whenAllocated_of_not_alloc ha]

/-- The inversion of `exec`: a command that answers next has completed in one of three ways. -/
theorem exec_next {i : Instr} {s t : State} (h : exec i s = .next t) : Completion i s t := by
  cases ha : s.alloc with
  | false =>
    cases i
    case init w hh =>
      simp only [exec, execInit, ha, Bool.false_eq_true, if_false] at h
      split at h
      next hf =>
        obtain ⟨t', ht, u, hu, h⟩ := by simpa only [andThen_eq_next] using h
        cases h
        obtain ⟨_, rfl⟩ := memWrite_eq_next.1 ht
        obtain ⟨_, rfl⟩ := memFill_eq_next.1 hu
        exact .init rfl ha hf rfl
      next hf => cases h; exact .allocError rfl ha hf rfl
    all_goals
      refine .stateError (by simp [Instr.mnemonic, ha]) ?_
      exact (Host.Outcome.next.inj ((exec_of_not_alloc (by simp [Instr.mnemonic]) ha).symm.trans h)).symm
  | true =>
    cases i
    case init w hh =>
      simp only [exec, execInit, ha, if_true] at h
      cases h
      exact .stateError (by simp [Instr.mnemonic, ha]) rfl
    case hline =>
      simp only [exec, execHline] at h
      obtain ⟨u, hu, rfl⟩ := draw_next ha h
      exact .effect (by simp [Instr.mnemonic]) ha (.hline hu) rfl
    case vline =>
      simp only [exec, execVline] at h
      obtain ⟨u, hu, rfl⟩ := draw_next ha h
      exact .effect (by simp [Instr.mnemonic]) ha (.vline hu) rfl
    case rect =>
      simp only [exec, execRect] at h
      obtain ⟨u, hu, rfl⟩ := draw_next ha h
      exact .effect (by simp [Instr.mnemonic]) ha (.rect hu) rfl
    case fillrect =>
      simp only [exec, execFillrect] at h
      obtain ⟨u, hu, rfl⟩ := draw_next ha h
      exact .effect (by simp [Instr.mnemonic]) ha (.fillrect hu) rfl
    case line =>
      simp only [exec, execLine] at h
      obtain ⟨u, hu, rfl⟩ := draw_next ha h
      exact .effect (by simp [Instr.mnemonic]) ha (.line hu) rfl
    case circle =>
      simp only [exec, execCircle] at h
      obtain ⟨u, hu, rfl⟩ := draw_next ha h
      exact .effect (by simp [Instr.mnemonic]) ha (.circle hu) rfl
    case fillcircle =>
      simp only [exec, execFillcircle] at h
      obtain ⟨u, hu, rfl⟩ := draw_next ha h
      exact .effect (by simp [Instr.mnemonic]) ha (.fillcircle hu) rfl
    case clear =>
      simp only [exec, execClear, whenAllocated_of_alloc ha] at h
      obtain ⟨u, hu, h⟩ := andThen_eq_next.1 h
      cases h
      obtain ⟨hb, rfl⟩ := memFill_eq_next.1 hu
      refine .effect (by simp [Instr.mnemonic]) ha (.clear ?_) rfl
      have : 1 ≤ s.size := by unfold State.size storageSize headerSize; omega
      unfold headerSize at hb
      omega
    case getpixel =>
      simp only [exec, execGetpixel, whenAllocated_of_alloc ha] at h
      obtain ⟨b, hb, h⟩ := andThen_eq_next.1 h
      cases h
      exact .effect (by simp [Instr.mnemonic]) ha (.getpixel hb) rfl
    case setpixel =>
      simp only [exec, execSetpixel, whenAllocated_of_alloc ha] at h
      obtain ⟨r, hr, h⟩ := andThen_eq_next.1 h
      cases h
      exact .effect (by simp [Instr.mnemonic]) ha (.setpixel hr) rfl
    case setclip =>
      simp only [exec, execSetclip, whenAllocated_of_alloc ha] at h
      cases h
      exact .effect (by simp [Instr.mnemonic]) ha .setclip rfl
    case clrclip =>
      simp only [exec, execClrclip, whenAllocated_of_alloc ha] at h
      cases h
      exact .effect (by simp [Instr.mnemonic]) ha .clrclip rfl
    case setfont =>
      simp only [exec, execSetfont, whenAllocated_of_alloc ha] at h
      cases h
      exact .effect (by simp [Instr.mnemonic]) ha .setfont rfl
    case glyph =>
      simp only [exec, execGlyph, whenAllocated_of_alloc ha] at h
      obtain ⟨r, hr, h⟩ := andThen_eq_next.1 h
      cases h
      exact .effect (by simp [Instr.mnemonic]) ha (.glyph hr) rfl
    case string =>
      simp only [exec, execString, whenAllocated_of_alloc ha] at h
      obtain ⟨r, hr, h⟩ := andThen_eq_next.1 h
      cases h
      exact .effect (by simp [Instr.mnemonic]) ha (.string hr) rfl
    case display =>
      simp only [exec, execDisplay, whenAllocated_of_alloc ha] at h
      obtain ⟨bs, hb, h⟩ := andThen_eq_next.1 h
      cases h
      exact .effect (by simp [Instr.mnemonic]) ha (.display hb) rfl

theorem activeFont_of_glyphDraw {x y : Int} {ch : Nat} {m : Mode} {s : State} {r : Int × State}
    (h : glyphDraw x y ch m s = .next r) : ∃ font, activeFont s = .next font := by
  obtain ⟨font, hf, _⟩ := andThen_eq_next.1 h
  exact ⟨font, hf⟩

/-- What GLYPH's drawing that completes has done. -/
theorem glyphDraw_next {x y : Int} {ch : Nat} {m : Mode} {s : State} {r : Int × State}
    (h : glyphDraw x y ch m s = .next r) :
    ∃ ps, r.2 = { s with fb := plotMemory s true m ps s.fb } := by
  obtain ⟨font, hf⟩ := activeFont_of_glyphDraw h
  rw [glyphDraw_eq hf] at h
  obtain ⟨t, ht, h⟩ := andThen_eq_next.1 h
  cases h
  exact ⟨_, plot_next ht⟩

/-- What STRING's drawing that completes has done. -/
theorem stringDraw_next {y : Int} {m : Mode} {chs : List Word} {c : Int} {s : State}
    {r : Int × State} (h : stringDraw y m chs c s = .next r) :
    ∃ ps, r.2 = { s with fb := plotMemory s true m ps s.fb } := by
  cases chs with
  | nil => cases h; exact ⟨[], rfl⟩
  | cons ch chs =>
    obtain ⟨q, hq, _⟩ := andThen_eq_next.1 h
    obtain ⟨font, hf⟩ := activeFont_of_glyphDraw hq
    rw [stringDraw_eq hf] at h
    obtain ⟨t, ht, h⟩ := andThen_eq_next.1 h
    cases h
    exact ⟨_, plot_next ht⟩

/-- Every effect but those of the five commands that write a register or the transport port is on FB alone: a list of pixels written, or CLEAR's fill. -/
theorem Effect.fb_only {i : Instr} {s u : State} {v : Int} (h : Effect i s u v) :
    (∃ b m ps, u = { s with fb := plotMemory s b m ps s.fb }) ∨
    (i = .clear ∧ s.size ≤ s.cfg.memBytes ∧
      u = { s with fb := s.fb.fill headerSize (s.size - headerSize) 0 }) ∨
    (∃ x y w h, (i = .setclip x y w h ∨ i = .clrclip) ∧ u = s.setClip x y w h) ∨
    (∃ idx, i = .setfont idx ∧
      u = s.setFontSel (if zext16 idx < s.cfg.nFonts then idx else fontNone)) ∨
    (∃ bs, i = .display ∧ u = s.emitFrame bs) := by
  cases h with
  | clear h => exact .inr (.inl ⟨rfl, h, rfl⟩)
  | getpixel => exact .inl ⟨true, .set, [], rfl⟩
  | @setpixel _ x y v m r h =>
    refine .inl ⟨v, m, [(sext16 x, sext16 y)], ?_⟩
    rw [pixWrite_next h]
    rfl
  | setclip => exact .inr (.inr (.inl ⟨_, _, _, _, .inl rfl, rfl⟩))
  | clrclip => exact .inr (.inr (.inl ⟨_, _, _, _, .inr rfl, rfl⟩))
  | hline h | vline h | rect h | fillrect h | line h | circle h | fillcircle h =>
    exact .inl ⟨_, _, _, plot_next h⟩
  | setfont => exact .inr (.inr (.inr (.inl ⟨_, rfl, rfl⟩)))
  | glyph h => obtain ⟨ps, hps⟩ := glyphDraw_next h; exact .inl ⟨_, _, ps, hps⟩
  | string h => obtain ⟨ps, hps⟩ := stringDraw_next h; exact .inl ⟨_, _, ps, hps⟩
  | display h => exact .inr (.inr (.inr (.inr ⟨_, rfl, rfl⟩)))

end Sys2Proof.Machine
end

