-- ==== Sys2Proof/Laws/PerInstr.lean ====
section
/-! SUPPORT. Two statements made once per command: its header word falls under the mask and match of its row of the opcode map (R76), and its packet has the length of its format (R73, R77). -/

namespace Sys2Proof.Laws

/-! ## HeaderMatch -/

/-- Columns match and mask of R76. -/
def HeaderMatch.row : Mnemonic → Word × Word
  | .init => (0x0100, 0xFFFF)
  | .clear => (0x0200, 0xFFFF)
  | .getpixel => (0x0300, 0xFFFF)
  | .setpixel => (0x0400, 0xFFF0)
  | .setclip => (0x0800, 0xFFFF)
  | .clrclip => (0x0900, 0xFFFF)
  | .hline => (0x1000, 0xFFF0)
  | .vline => (0x1100, 0xFFF0)
  | .rect => (0x1200, 0xFFF0)
  | .fillrect => (0x1300, 0xFFF0)
  | .line => (0x1400, 0xFFF0)
  | .circle => (0x1500, 0xFFF0)
  | .fillcircle => (0x1600, 0xFFF0)
  | .setfont => (0x2000, 0xFFFF)
  | .glyph => (0x2100, 0xFFF8)
  | .string => (0x2200, 0xFFF8)
  | .display => (0x3000, 0xFFFF)

/-- The header word of the command selects the row of its mnemonic (R76), and carries no reserved mode (R78 (e)). -/
def HeaderMatch.Statement (i : Instr) : Prop :=
  (encode i).header &&& (HeaderMatch.row i.mnemonic).2 = (HeaderMatch.row i.mnemonic).1 ∧
    ((encode i).header &&& 7).toNat ≤ 4

theorem HeaderMatch.init (w h : Word) : HeaderMatch.Statement (.init w h) := by
  change headerWord 0x01 false 0 &&& 0xFFFF = 0x0100 ∧
    (headerWord 0x01 false 0 &&& 7).toNat ≤ 4
  decide

theorem HeaderMatch.clear : HeaderMatch.Statement .clear := by
  change headerWord 0x02 false 0 &&& 0xFFFF = 0x0200 ∧
    (headerWord 0x02 false 0 &&& 7).toNat ≤ 4
  decide

theorem HeaderMatch.getpixel (x y : Word) : HeaderMatch.Statement (.getpixel x y) := by
  change headerWord 0x03 false 0 &&& 0xFFFF = 0x0300 ∧
    (headerWord 0x03 false 0 &&& 7).toNat ≤ 4
  decide

theorem HeaderMatch.setpixel (x y : Word) (v : Bool) (m : Mode) : HeaderMatch.Statement (.setpixel x y v m) := by
  change headerWord 0x04 v m.bits &&& 0xFFF0 = 0x0400 ∧
    (headerWord 0x04 v m.bits &&& 7).toNat ≤ 4
  cases v <;> cases m <;> decide

theorem HeaderMatch.setclip (x y w h : Word) : HeaderMatch.Statement (.setclip x y w h) := by
  change headerWord 0x08 false 0 &&& 0xFFFF = 0x0800 ∧
    (headerWord 0x08 false 0 &&& 7).toNat ≤ 4
  decide

theorem HeaderMatch.clrclip : HeaderMatch.Statement .clrclip := by
  change headerWord 0x09 false 0 &&& 0xFFFF = 0x0900 ∧
    (headerWord 0x09 false 0 &&& 7).toNat ≤ 4
  decide

theorem HeaderMatch.hline (x y w : Word) (v : Bool) (m : Mode) : HeaderMatch.Statement (.hline x y w v m) := by
  change headerWord 0x10 v m.bits &&& 0xFFF0 = 0x1000 ∧
    (headerWord 0x10 v m.bits &&& 7).toNat ≤ 4
  cases v <;> cases m <;> decide

theorem HeaderMatch.vline (x y h : Word) (v : Bool) (m : Mode) : HeaderMatch.Statement (.vline x y h v m) := by
  change headerWord 0x11 v m.bits &&& 0xFFF0 = 0x1100 ∧
    (headerWord 0x11 v m.bits &&& 7).toNat ≤ 4
  cases v <;> cases m <;> decide

theorem HeaderMatch.rect (x y w h : Word) (v : Bool) (m : Mode) : HeaderMatch.Statement (.rect x y w h v m) := by
  change headerWord 0x12 v m.bits &&& 0xFFF0 = 0x1200 ∧
    (headerWord 0x12 v m.bits &&& 7).toNat ≤ 4
  cases v <;> cases m <;> decide

theorem HeaderMatch.fillrect (x y w h : Word) (v : Bool) (m : Mode) : HeaderMatch.Statement (.fillrect x y w h v m) := by
  change headerWord 0x13 v m.bits &&& 0xFFF0 = 0x1300 ∧
    (headerWord 0x13 v m.bits &&& 7).toNat ≤ 4
  cases v <;> cases m <;> decide

theorem HeaderMatch.line (x0 y0 x1 y1 : Word) (v : Bool) (m : Mode) : HeaderMatch.Statement (.line x0 y0 x1 y1 v m) := by
  change headerWord 0x14 v m.bits &&& 0xFFF0 = 0x1400 ∧
    (headerWord 0x14 v m.bits &&& 7).toNat ≤ 4
  cases v <;> cases m <;> decide

theorem HeaderMatch.circle (cx cy r : Word) (v : Bool) (m : Mode) : HeaderMatch.Statement (.circle cx cy r v m) := by
  change headerWord 0x15 v m.bits &&& 0xFFF0 = 0x1500 ∧
    (headerWord 0x15 v m.bits &&& 7).toNat ≤ 4
  cases v <;> cases m <;> decide

theorem HeaderMatch.fillcircle (cx cy r : Word) (v : Bool) (m : Mode) : HeaderMatch.Statement (.fillcircle cx cy r v m) := by
  change headerWord 0x16 v m.bits &&& 0xFFF0 = 0x1600 ∧
    (headerWord 0x16 v m.bits &&& 7).toNat ≤ 4
  cases v <;> cases m <;> decide

theorem HeaderMatch.setfont (idx : Word) : HeaderMatch.Statement (.setfont idx) := by
  change headerWord 0x20 false 0 &&& 0xFFFF = 0x2000 ∧
    (headerWord 0x20 false 0 &&& 7).toNat ≤ 4
  decide

theorem HeaderMatch.glyph (x y ch : Word) (m : Mode) : HeaderMatch.Statement (.glyph x y ch m) := by
  change headerWord 0x21 false m.bits &&& 0xFFF8 = 0x2100 ∧
    (headerWord 0x21 false m.bits &&& 7).toNat ≤ 4
  cases m <;> decide

theorem HeaderMatch.string (x y : Word) (chs : List Word) (m : Mode) : HeaderMatch.Statement (.string x y chs m) := by
  change headerWord 0x22 false m.bits &&& 0xFFF8 = 0x2200 ∧
    (headerWord 0x22 false m.bits &&& 7).toNat ≤ 4
  cases m <;> decide

theorem HeaderMatch.display : HeaderMatch.Statement .display := by
  change headerWord 0x30 false 0 &&& 0xFFFF = 0x3000 ∧
    (headerWord 0x30 false 0 &&& 7).toNat ≤ 4
  decide

/-! ## PacketLength -/

/-- The packet length in words of R73: for STRING 4 + n, n being the number of its characters. -/
def PacketLength.words : Instr → Nat
  | .clear | .clrclip | .display => 1
  | .setfont .. => 2
  | .init .. | .getpixel .. | .setpixel .. => 3
  | .hline .. | .vline .. | .circle .. | .fillcircle .. | .glyph .. => 4
  | .setclip .. | .rect .. | .fillrect .. | .line .. => 5
  | .string _ _ chs _ => 4 + chs.length

/-- The packet of the command is as long as its format asks; for STRING, word 3 is the count (R77). -/
def PacketLength.Statement (i : Instr) : Prop :=
  (encode i).length = PacketLength.words i ∧
    ∀ x y chs m, i = .string x y chs m → chs.length ≤ 65535 →
      (encode i).operands[2]?.map BitVec.toNat = some chs.length

theorem PacketLength.init (w h : Word) : PacketLength.Statement (.init w h) :=
  ⟨rfl, fun _ _ _ _ h => nomatch h⟩

theorem PacketLength.clear : PacketLength.Statement .clear :=
  ⟨rfl, fun _ _ _ _ h => nomatch h⟩

theorem PacketLength.getpixel (x y : Word) : PacketLength.Statement (.getpixel x y) :=
  ⟨rfl, fun _ _ _ _ h => nomatch h⟩

theorem PacketLength.setpixel (x y : Word) (v : Bool) (m : Mode) : PacketLength.Statement (.setpixel x y v m) :=
  ⟨rfl, fun _ _ _ _ h => nomatch h⟩

theorem PacketLength.setclip (x y w h : Word) : PacketLength.Statement (.setclip x y w h) :=
  ⟨rfl, fun _ _ _ _ h => nomatch h⟩

theorem PacketLength.clrclip : PacketLength.Statement .clrclip :=
  ⟨rfl, fun _ _ _ _ h => nomatch h⟩

theorem PacketLength.hline (x y w : Word) (v : Bool) (m : Mode) : PacketLength.Statement (.hline x y w v m) :=
  ⟨rfl, fun _ _ _ _ h => nomatch h⟩

theorem PacketLength.vline (x y h : Word) (v : Bool) (m : Mode) : PacketLength.Statement (.vline x y h v m) :=
  ⟨rfl, fun _ _ _ _ h => nomatch h⟩

theorem PacketLength.rect (x y w h : Word) (v : Bool) (m : Mode) : PacketLength.Statement (.rect x y w h v m) :=
  ⟨rfl, fun _ _ _ _ h => nomatch h⟩

theorem PacketLength.fillrect (x y w h : Word) (v : Bool) (m : Mode) : PacketLength.Statement (.fillrect x y w h v m) :=
  ⟨rfl, fun _ _ _ _ h => nomatch h⟩

theorem PacketLength.line (x0 y0 x1 y1 : Word) (v : Bool) (m : Mode) : PacketLength.Statement (.line x0 y0 x1 y1 v m) :=
  ⟨rfl, fun _ _ _ _ h => nomatch h⟩

theorem PacketLength.circle (cx cy r : Word) (v : Bool) (m : Mode) : PacketLength.Statement (.circle cx cy r v m) :=
  ⟨rfl, fun _ _ _ _ h => nomatch h⟩

theorem PacketLength.fillcircle (cx cy r : Word) (v : Bool) (m : Mode) : PacketLength.Statement (.fillcircle cx cy r v m) :=
  ⟨rfl, fun _ _ _ _ h => nomatch h⟩

theorem PacketLength.setfont (idx : Word) : PacketLength.Statement (.setfont idx) :=
  ⟨rfl, fun _ _ _ _ h => nomatch h⟩

theorem PacketLength.glyph (x y ch : Word) (m : Mode) : PacketLength.Statement (.glyph x y ch m) :=
  ⟨rfl, fun _ _ _ _ h => nomatch h⟩

theorem PacketLength.string (x y : Word) (chs : List Word) (m : Mode) :
    PacketLength.Statement (.string x y chs m) := by
  refine ⟨?_, ?_⟩
  · simp [encode, Packet.length, PacketLength.words, Instr.operandWords]; omega
  · rintro x y chs m ⟨⟩ h
    simp [encode, Instr.operandWords]
    omega

theorem PacketLength.display : PacketLength.Statement .display :=
  ⟨rfl, fun _ _ _ _ h => nomatch h⟩

end Sys2Proof.Laws
end

