-- ==== Sys2Proof/Laws/Pixels.lean ====
section
/-! SUPPORT. The pixel lists of the rasterizers: which pixels they hold, and how often (R7, R140, R141, R145, R170). -/

namespace Sys2Proof.Machine

theorem mem_ascending {a b i : Int} : i ∈ ascending a b ↔ a ≤ i ∧ i ≤ b := by
  simp only [ascending, List.mem_map, List.mem_range]
  constructor
  · rintro ⟨k, hk, rfl⟩; omega
  · rintro ⟨h1, h2⟩; exact ⟨(i - a).toNat, by omega, by omega⟩

theorem nodup_ascending (a b : Int) : (ascending a b).Nodup :=
  List.nodup_range.map fun i j h => by simpa using h

theorem length_ascending (a b : Int) : (ascending a b).length = (b - a + 1).toNat := by
  simp [ascending]

/-- A list without repeats holds each of its pixels once. -/
theorem count_of_nodup {l : List Pixel} (h : l.Nodup) (p : Pixel) :
    l.count p = if p ∈ l then 1 else 0 := by
  split
  · exact List.count_eq_one_of_mem h ‹_›
  · exact List.count_eq_zero_of_not_mem ‹_›

/-- The row of HLINE, each pixel once (R140). -/
theorem count_hlinePixels (x y w px py : Int) :
    (hlinePixels x y w).count (px, py) = if py = y ∧ x ≤ px ∧ px ≤ x + w then 1 else 0 := by
  have hd : (hlinePixels x y w).Nodup := (nodup_ascending _ _).map fun i j e => by simpa using e
  rw [count_of_nodup hd]
  refine if_congr ?_ rfl rfl
  simp only [hlinePixels, List.mem_map, mem_ascending, Prod.mk.injEq]
  exact ⟨fun ⟨i, h1, h2, h3⟩ => by omega, fun h => ⟨px - x, by omega, by omega, by omega⟩⟩

/-- The column of VLINE, each pixel once (R141). -/
theorem count_vlinePixels (x y h px py : Int) :
    (vlinePixels x y h).count (px, py) = if px = x ∧ y ≤ py ∧ py ≤ y + h then 1 else 0 := by
  have hd : (vlinePixels x y h).Nodup := (nodup_ascending _ _).map fun i j e => by simpa using e
  rw [count_of_nodup hd]
  refine if_congr ?_ rfl rfl
  simp only [vlinePixels, List.mem_map, mem_ascending, Prod.mk.injEq]
  exact ⟨fun ⟨i, h1, h2, h3⟩ => by omega, fun h => ⟨py - y, by omega, by omega, by omega⟩⟩

/-- One pass of the loop of LINE (R145). -/
theorem lineLoop_succ (x1 y1 dx dy sx sy : Int) (n : Nat) (x y err : Int) :
    lineLoop x1 y1 dx dy sx sy (n + 1) x y err =
      (x, y) ::
        if x = x1 ∧ y = y1 then []
        else
          lineLoop x1 y1 dx dy sx sy n
            (if dy ≤ 2 * err then x + sx else x)
            (if 2 * err ≤ dx then y + sy else y)
            (err + (if dy ≤ 2 * err then dy else 0) + (if 2 * err ≤ dx then dx else 0)) := rfl

/-- One iteration of the circle loop (R172, R174). -/
theorem circleLoop_succ (n : Nat) (x y d : Int) :
    circleLoop (n + 1) x y d =
      if x ≤ y then
        if d < 0 then (x, y) :: (x, y) :: circleLoop n (x + 1) y (d + 2 * x + 3)
        else (x, y) :: (x, y - 1) :: circleLoop n (x + 1) (y - 1) (d + 2 * (x - y) + 5)
      else [] := rfl

theorem circleLoop_of_lt {x y : Int} (h : y < x) (n : Nat) (d : Int) : circleLoop n x y d = [] := by
  cases n with
  | zero => rfl
  | succ n => rw [circleLoop_succ, if_neg (by omega)]

/-- The eight images of a pass (R170). -/
theorem mem_plot8 {cx cy x y px py : Int} :
    (px, py) ∈ plot8 cx cy x y ↔
      ((px = cx + x ∨ px = cx - x) ∧ (py = cy + y ∨ py = cy - y)) ∨
      ((px = cx + y ∨ px = cx - y) ∧ (py = cy + x ∨ py = cy - x)) := by
  simp only [plot8, List.mem_cons, Prod.mk.injEq, List.not_mem_nil, or_false]
  tauto

end Sys2Proof.Machine
end

