-- ==== Sys2Proof/Tests/Slice0.lean ====
section
/-! SUPPORT. Tests: the check on ill-formed commands, words written out from the encodings of the spec, one step of each command against the vectors of 95_test_vectors.md, and a witness of the hypotheses of every obligation that has some. -/

namespace Sys2Proof.Tests

open Sys2Proof.Machine Sys2Proof.Claims

/-! ## Well-formed commands (R72) -/

theorem test_string_too_long_is_refused (chs : List Word) (h : chs.length = 65536) :
    (Instr.string 0 0 chs .set).wellFormed = false := by simp [h]

theorem test_longest_string_is_accepted (chs : List Word) (h : chs.length = 65535) :
    (Instr.string 0 0 chs .set).wellFormed = true := by simp [h]

/-- A list of 65536 characters, which the two tests above are about. -/
theorem test_such_a_string_exists : ∃ chs : List Word, chs.length = 65536 :=
  ⟨List.replicate _ 0, List.length_replicate⟩

/-! ## Decoding: words written out from R71 to R76 -/

theorem test_decode_init : decode ⟨0x0100, [0x0080, 0x0040]⟩ = .ok (.init 128 64) := by decide

theorem test_decode_clear : decode ⟨0x0200, []⟩ = .ok .clear := by decide

theorem test_decode_getpixel : decode ⟨0x0300, [0xFFFF, 0x0001]⟩ = .ok (.getpixel (-1) 1) := by decide

theorem test_decode_setpixel :
    decode ⟨0x040B, [0x0003, 0x0004]⟩ = .ok (.setpixel 3 4 true .xor) := by decide

theorem test_decode_setclip :
    decode ⟨0x0800, [1, 2, 3, 4]⟩ = .ok (.setclip 1 2 3 4) := by decide

theorem test_decode_clrclip : decode ⟨0x0900, []⟩ = .ok .clrclip := by decide

theorem test_decode_hline :
    decode ⟨0x1002, [1, 2, 3]⟩ = .ok (.hline 1 2 3 false .and) := by decide

theorem test_decode_vline :
    decode ⟨0x110C, [1, 2, 3]⟩ = .ok (.vline 1 2 3 true .not) := by decide

theorem test_decode_rect :
    decode ⟨0x1208, [1, 2, 3, 4]⟩ = .ok (.rect 1 2 3 4 true .set) := by decide

theorem test_decode_fillrect :
    decode ⟨0x1309, [1, 2, 3, 4]⟩ = .ok (.fillrect 1 2 3 4 true .or) := by decide

theorem test_decode_line :
    decode ⟨0x1403, [1, 2, 3, 4]⟩ = .ok (.line 1 2 3 4 false .xor) := by decide

theorem test_decode_circle :
    decode ⟨0x1504, [1, 2, 3]⟩ = .ok (.circle 1 2 3 false .not) := by decide

theorem test_decode_fillcircle :
    decode ⟨0x1608, [1, 2, 3]⟩ = .ok (.fillcircle 1 2 3 true .set) := by decide

theorem test_decode_setfont : decode ⟨0x2000, [0xFFFF]⟩ = .ok (.setfont 0xFFFF) := by decide

theorem test_decode_glyph :
    decode ⟨0x2104, [1, 2, 0x41]⟩ = .ok (.glyph 1 2 0x41 .not) := by decide

theorem test_decode_string :
    decode ⟨0x2201, [1, 2, 3, 0x41, 0x20, 0x42]⟩ = .ok (.string 1 2 [0x41, 0x20, 0x42] .or) := by
  decide

theorem test_decode_display : decode ⟨0x3000, []⟩ = .ok .display := by decide

/-- The illegal packets of R78 (a) to (f), with the words of 95_test_vectors.md section 2.7 where it has one. -/
theorem test_decode_illegal :
    decode ⟨0x0000, []⟩ = .error .unassignedOpcode ∧
    decode ⟨0x0500, []⟩ = .error .unassignedOpcode ∧
    decode ⟨0x3100, []⟩ = .error .unassignedOpcode ∧
    decode ⟨0x0310, [0, 0]⟩ = .error .reservedBitsSet ∧
    decode ⟨0x0308, [0, 0]⟩ = .error .unusedFieldSet ∧
    decode ⟨0x3001, []⟩ = .error .unusedFieldSet ∧
    decode ⟨0x2108, [0, 0, 0x41]⟩ = .error .valueBitSet ∧
    decode ⟨0x0405, [0, 0]⟩ = .error .reservedMode ∧
    decode ⟨0x0100, [0x0080]⟩ = .error .wrongLength ∧
    decode ⟨0x1008, [0, 0, 3, 0]⟩ = .error .wrongLength ∧
    decode ⟨0x0900, [0]⟩ = .error .wrongLength ∧
    decode ⟨0x2200, [0, 0]⟩ = .error .wrongLength := by decide

/-- A packet as one number: word 0 in the low bits, operand words of zeros above (log 9). -/
theorem test_decode_table_word :
    decodeTableWord 16 0x0100 = some (.init 0 0) ∧
    decodeTableWord 48 0x0040_0080_0100 = some (.init 128 64) ∧
    decodeTableWord 16 0x2201 = some (.string 0 0 [] .or) ∧
    decodeTableWord 80 0x0041_0001_0000_0002_2200 = some (.string 2 0 [0x41] .set) ∧
    decodeTableWord 16 0x0500 = none := by decide

/-! ## Fixtures: a freshly initialised buffer of CFG128 of 95_test_vectors.md -/

/-- The header byte and `n` pixel bytes of 0. -/
def freshMemory (n : Nat) : Memory := (0, 0x40) :: (List.range' 1 n).map fun a => (a, 0)

/-- The state after INIT w, h from reset, but for the response. -/
def fresh (w h : Word) : State :=
  { State.reset with
    alloc := true, w := w, h := h, clipW := w, clipH := h
    fb := freshMemory (w.toNat * pagesOf h.toNat) }

/-- `s` with other pixel bytes. -/
def withBytes (cells : List (Nat × Byte)) (s : State) : State :=
  { s with fb := cells.foldl (fun m c => m.write c.1 c.2) s.fb }

/-- What a test looks at: the last response as numbers, and the pixel bytes that are not 0. -/
structure Seen where
  status : Nat
  value  : Int
  bytes  : List (Nat × Nat)
deriving DecidableEq, Repr

/-- One step of `s` on a packet. -/
def look (header : Word) (operands : List Word) (s : State) : Option Seen :=
  match step { s with port := [.packet ⟨header, operands⟩] } with
  | .next t =>
    t.responses.getLast?.map fun r =>
      { status := r.status.code.toNat
        value := r.value.toInt
        bytes := (t.fb.filter fun c => c.1 ≠ 0 ∧ c.2 ≠ 0).map fun c => (c.1, c.2.toNat) }
  | _ => none

/-- A field of the state after one step on a packet. -/
def stateAfter {α : Type} (f : State → α) (header : Word) (operands : List Word) (s : State) : Option α :=
  match step { s with port := [.packet ⟨header, operands⟩] } with
  | .next t => some (f t)
  | _ => none

/-! ## One step of each command -/

/-- P6 step 1, the whole state. -/
theorem test_init :
    stateAfter id 0x0100 [0x000A, 0x000C] State.reset =
      some { fresh 10 12 with responses := [⟨.ok, 0⟩] } := by decide

/-- Section 2.7: INIT 128, 65 does not fit 1025 bytes; from reset it changes nothing. -/
theorem test_init_too_large :
    stateAfter id 0x0100 [0x0080, 0x0041] State.reset =
      some { State.reset with responses := [⟨.errAlloc, 0⟩] } := by decide

/-- Section 2.3, last row: CLEAR ignores the clip. -/
theorem test_clear_ignores_the_clip :
    look 0x0200 [] ((withBytes [(5, 0x78), (30, 0xC0)] (fresh 16 16)).setClip 4 4 2 2) =
      some ⟨0, 0, []⟩ := by decide

/-- P1 steps 3 and 4. -/
theorem test_getpixel :
    look 0x0300 [2, 3] (withBytes [(5, 0x78)] (fresh 16 16)) = some ⟨0, 1, [(5, 0x78)]⟩ ∧
    look 0x0300 [3, 4] (withBytes [(5, 0x78)] (fresh 16 16)) = some ⟨0, 0, [(5, 0x78)]⟩ := by
  decide

/-- S1: reads out of bounds give 0. -/
theorem test_getpixel_out_of_bounds :
    look 0x0300 [16, 0] (withBytes [(1, 0xFF), (2, 0xFF)] (fresh 16 16)) =
      some ⟨0, 0, [(1, 0xFF), (2, 0xFF)]⟩ ∧
    look 0x0300 [0xFFFF, 0] (withBytes [(1, 0xFF)] (fresh 16 16)) = some ⟨0, 0, [(1, 0xFF)]⟩ := by
  decide

/-- P1 steps 5 and 7: the response is the bit before the write; NOT stores the complement of V. -/
theorem test_setpixel :
    look 0x040B [2, 3] (withBytes [(5, 0x78)] (fresh 16 16)) = some ⟨0, 1, [(5, 0x70)]⟩ ∧
    look 0x0404 [6, 6] (withBytes [(13, 0x38)] (fresh 16 16)) = some ⟨0, 0, [(13, 0x78)]⟩ := by
  decide

/-- S1: with the clip {4, 4, 3, 2}, its closed upper corner is written and the column after it is not. -/
theorem test_setpixel_at_the_clip_edge :
    look 0x0408 [7, 6] ((fresh 16 16).setClip 4 4 3 2) = some ⟨0, 0, [(15, 0x40)]⟩ ∧
    look 0x0408 [8, 4] ((fresh 16 16).setClip 4 4 3 2) = some ⟨0, 0, []⟩ := by decide

/-- Section 2.3: SETCLIP −10, −10, 500, 500. -/
theorem test_setclip :
    stateAfter (fun t => [t.clipX, t.clipY, t.clipW, t.clipH]) 0x0800
      [0xFFF6, 0xFFF6, 0x01F4, 0x01F4] (fresh 16 16) = some [0xFFF6, 0xFFF6, 500, 500] := by
  decide

/-- P2 step 6, on another size. -/
theorem test_clrclip :
    stateAfter (fun t => [t.clipX, t.clipY, t.clipW, t.clipH]) 0x0900 []
      ((fresh 10 12).setClip 1 2 9 9) = some [0, 0, 10, 12] := by decide

/-- Section 2.3: HLINE 14, 0, 5 under the clip {−10, −10, 500, 500}. -/
theorem test_hline :
    look 0x1008 [14, 0, 5] ((fresh 16 16).setClip 0xFFF6 0xFFF6 500 500) =
      some ⟨0, 0, [(29, 1), (31, 1)]⟩ := by decide

/-- Section 2.4: HLINE 4, 2, −1 writes nothing. -/
theorem test_hline_negative :
    look 0x1008 [4, 2, 0xFFFF] (fresh 16 16) = some ⟨0, 0, []⟩ := by decide

/-- P6 step 2: rows past H leave the padding bits 0. -/
theorem test_vline :
    look 0x1108 [9, 6, 10] (fresh 10 12) = some ⟨0, 0, [(19, 0xC0), (20, 0x0F)]⟩ := by
  decide

/-- Section 2.4: RECT 2, 3, 4, 3 under XOR; two corners are missing. -/
theorem test_rect :
    look 0x120B [2, 3, 4, 3] (fresh 16 16) =
      some ⟨0, 0, [(5, 0x70), (7, 0x48), (9, 0x48), (11, 0x48), (13, 0x38)]⟩ := by decide

/-- Section 2.4: RECT 2, 3, −1, 3. -/
theorem test_rect_negative_width :
    look 0x1208 [2, 3, 0xFFFF, 3] (fresh 16 16) = some ⟨0, 0, [(3, 0x78), (5, 0x38)]⟩ := by
  decide

/-- Section 2.3: FILLRECT 0, 0, 9, 9 under the clip {2, 2, 3, 3}. -/
theorem test_fillrect :
    look 0x1308 [0, 0, 9, 9] ((fresh 16 16).setClip 2 2 3 3) =
      some ⟨0, 0, [(5, 0x3C), (7, 0x3C), (9, 0x3C), (11, 0x3C)]⟩ := by decide

/-- Section 2.4: LINE 4, 2, 0, 0 is not LINE 0, 0, 4, 2 reversed. -/
theorem test_line_pixels :
    linePixels 0 0 4 2 = [(0, 0), (1, 1), (2, 1), (3, 2), (4, 2)] ∧
    linePixels 4 2 0 0 = [(4, 2), (3, 1), (2, 1), (1, 0), (0, 0)] := by decide

/-- Section 2.4: LINE 0, 0, 5, 2. -/
theorem test_line :
    look 0x1408 [0, 0, 5, 2] (fresh 16 16) =
      some ⟨0, 0, [(1, 1), (3, 1), (5, 2), (7, 2), (9, 4), (11, 4)]⟩ := by decide

/-- Section 2.5: CIRCLE 7, 7, 3 under XOR. -/
theorem test_circle :
    look 0x150B [7, 7, 3] (fresh 16 16) =
      some ⟨0, 0, [(9, 0x40), (10, 1), (13, 0x10), (14, 4), (17, 0x10), (18, 4), (21, 0x40), (22, 1)]⟩ := by
  decide

/-- Section 2.5: CIRCLE 0, 0, 2; only one quadrant is in bounds. -/
theorem test_circle_at_the_corner :
    look 0x1508 [0, 0, 2] (fresh 16 16) = some ⟨0, 0, [(1, 4), (3, 6), (5, 3)]⟩ := by
  decide

/-- Section 2.5: FILLCIRCLE 7, 7, 2 under SET and under XOR. -/
theorem test_fillcircle :
    look 0x1608 [7, 7, 2] (fresh 16 16) =
      some ⟨0, 0, [(11, 0xC0), (12, 1), (13, 0xE0), (14, 3), (15, 0xE0), (16, 3), (17, 0xE0), (18, 3), (19, 0xC0), (20, 1)]⟩ ∧
    look 0x160B [7, 7, 2] (fresh 16 16) =
      some ⟨0, 0, [(11, 0x40), (12, 1), (13, 0x60), (14, 3), (15, 0x60), (16, 3), (17, 0x60), (18, 3), (19, 0x40), (20, 1)]⟩ := by
  decide

/-- R193: with one table, SETFONT 0 selects it, SETFONT 1 and SETFONT 0xFFFF unset the font. -/
theorem test_setfont :
    stateAfter State.fontSel 0x2000 [0] (fresh 16 16) = some 0 ∧
    stateAfter State.fontSel 0x2000 [1] ((fresh 16 16).setFontSel 0) = some 0xFFFF ∧
    stateAfter State.fontSel 0x2000 [0xFFFF] ((fresh 16 16).setFontSel 0) = some 0xFFFF := by
  decide

/-- Section 2.6: GLYPH 1, 0, 0x41. -/
theorem test_glyph :
    look 0x2100 [1, 0, 0x41] ((fresh 16 16).setFontSel 0) =
      some ⟨0, 4, [(3, 0xF0), (5, 0x28), (7, 0xF0)]⟩ := by decide

/-- Section 2.6: a code above `last`, and no font. -/
theorem test_glyph_unsupported :
    look 0x2100 [0, 0, 0x43] ((fresh 16 16).setFontSel 0) = some ⟨0, 0, []⟩ ∧
    look 0x2100 [0, 0, 0x41] (fresh 16 16) = some ⟨0, 0, []⟩ := by decide

/-- Section 2.6: STRING 0, 0, "A B", OR. -/
theorem test_string :
    look 0x2201 [0, 0, 3, 0x41, 0x20, 0x42] ((fresh 16 16).setFontSel 0) =
      some ⟨0, 8, [(1, 0xF0), (3, 0x28), (5, 0xF0), (11, 0xF8), (13, 0xA8), (15, 0x50)]⟩ := by
  decide

/-- Section 2.6: STRING −2, 0, "A". -/
theorem test_string_negative_start :
    look 0x2200 [0xFFFE, 0, 1, 0x41] ((fresh 16 16).setFontSel 0) = some ⟨0, 2, [(1, 0xF0)]⟩ := by
  decide

/-- P6 step 5: the 21 bytes emitted. -/
theorem test_display :
    stateAfter State.frames 0x3000 [] (withBytes [(19, 0xC0), (20, 0x0F)] (fresh 10 12)) =
      some [[0x40, 0, 0, 0, 0, 0, 0, 0, 0, 0, 0, 0, 0, 0, 0, 0, 0, 0, 0, 0xC0, 0x0F]] := by
  decide

/-- Section 2.7: refusals before INIT, and the order of the checks (R236). -/
theorem test_refusals :
    look 0x3000 [] State.reset = some ⟨3, 0, []⟩ ∧
    look 0x0405 [0, 0] State.reset = some ⟨2, 0, []⟩ ∧
    look 0x0100 [0x0080, 0x0041] (fresh 10 12) = some ⟨3, 0, []⟩ ∧
    look 0x0101 [0x0080, 0x0041] (fresh 10 12) = some ⟨2, 0, []⟩ := by decide

/-- Section 2.2: the twenty cases of the mux, as E with V = 0 and V = 1. -/
theorem test_merge :
    [Mode.set, .or, .and, .xor, .not].map (fun m =>
      [merge m false false, merge m true false, merge m false true, merge m true true]) =
    [[false, true, false, true], [false, true, true, true], [false, false, false, true],
     [false, true, true, false], [true, false, true, false]] := by decide

/-- Section 0.2: the bit streams of TF1, rows top to bottom. -/
theorem test_glyph_bits :
    (Font.tf1.glyphs.map fun g =>
      (List.range 5).map fun row => (List.range 3).map fun col => glyphBit Font.tf1 g col row) =
    [[[false, true, false], [true, false, true], [true, true, true], [true, false, true], [true, false, true]],
     [[true, true, false], [true, false, true], [true, true, false], [true, false, true], [true, true, false]]] := by
  decide

/-! ## Witnesses: states and operands that meet the hypotheses of the obligations -/

theorem read_freshMemory (n a : Nat) :
    (freshMemory n).read a = if a = 0 then some 0x40 else if a < n + 1 then some 0 else none := by
  rw [freshMemory, Memory.read_cons, Memory.read_run]
  grind

theorem wf_freshMemory (n : Nat) : (freshMemory n).wf := by
  refine List.pairwise_cons.2 ⟨fun c hc => ?_, ?_⟩
  · obtain ⟨a, ha, rfl⟩ := List.mem_map.1 hc
    have := (List.mem_range'_1.1 ha).1
    simp only; omega
  · rw [List.pairwise_map]
    exact List.pairwise_lt_range'

/-- A state of a run after INIT whose pixels are all 0. -/
theorem ready_of_fresh {s : State} (ha : s.alloc = true) (hc : s.cfg = Config.cfg128)
    (hb : s.fb = freshMemory (s.size - 1)) (hn : s.fontSel = fontNone ∨ s.fontSel = 0)
    (hw : 1 ≤ s.w.toNat ∧ s.w.toNat ≤ 32767) (hh : 1 ≤ s.h.toNat ∧ s.h.toNat ≤ 32767)
    (hm : s.size ≤ 1025) : Ready s := by
  have h1 : 1 ≤ s.size := Nat.le_add_right 1 _
  refine ⟨⟨hb ▸ wf_freshMemory _, ?_, ?_, fun _ => ⟨hw, hh⟩, fun _ => hc ▸ hm, fun _ a => ?_, fun _ => ?_, fun _ => ?_⟩, ha⟩
  · refine hn.imp_right fun h => ?_
    rw [h, hc]
    decide
  · intro h
    rw [ha] at h
    cases h
  · rw [hb, read_freshMemory]
    grind
  · rw [hb, hc]
    rfl
  · intro x k b _ _ _ _ hr
    rw [hb, read_freshMemory, if_neg (by unfold headerSize; omega)] at hr
    split at hr <;> cases hr
    exact BitVec.getLsbD_zero

/-- 10 × 12 pixels, as in P6: a height that is no multiple of 8. -/
theorem ready_fresh : Ready (fresh 10 12) :=
  ready_of_fresh rfl rfl rfl (.inl rfl) (by decide) (by decide) (by decide)

/-- The same with TF1 active and the clip {0, 0, 4, 9}. -/
def text : State := ((fresh 10 12).setFontSel 0).setClip 0 0 4 9

theorem ready_text : Ready text :=
  ready_of_fresh rfl rfl rfl (.inr rfl) (by decide) (by decide) (by decide)

theorem fonts_wellFormed : FontsWellFormed Config.cfg128 := by
  intro f hf
  rw [List.mem_singleton.1 hf]
  decide

/-- `s` with one packet on the port. -/
def presented (header : Word) (operands : List Word) (s : State) : State :=
  { s with port := [.packet ⟨header, operands⟩] }

theorem ready_presented (header : Word) (operands : List Word) :
    Ready (presented header operands (fresh 10 12)) := by
  refine ready_of_fresh rfl rfl ?_ (.inl rfl) ?_ ?_ ?_
  · exact (by decide : (fresh 10 12).fb = freshMemory ((fresh 10 12).size - 1))
  · exact (by decide : 1 ≤ (10 : Word).toNat ∧ (10 : Word).toNat ≤ 32767)
  · exact (by decide : 1 ≤ (12 : Word).toNat ∧ (12 : Word).toNat ≤ 32767)
  · exact (by decide : (fresh 10 12).size ≤ 1025)

/-- The result of a command is a next state. -/
def completes (i : Instr) (s : State) : Bool :=
  match exec i s with
  | .next _ => true
  | _ => false

theorem exists_next {i : Instr} {s : State} (h : completes i s = true) : ∃ t, exec i s = .next t := by
  unfold completes at h
  split at h
  next t ht => exact ⟨t, ht⟩
  next => cases h

/-- The same of a step. -/
def steps (s : State) : Bool :=
  match step s with
  | .next _ => true
  | _ => false

theorem exists_step {s : State} (h : steps s = true) : ∃ t, step s = .next t := by
  unfold steps at h
  split at h
  next t ht => exact ⟨t, ht⟩
  next => cases h

theorem witness_DecodeOfEncodeIsTheCommand :
    (Instr.string 3 0 [0x41, 0x20] .xor).wellFormed = true := by decide

theorem witness_EncodeOfDecodeIsThePacket :
    decode ⟨0x2203, [3, 0, 2, 0x41, 0x20]⟩ = .ok (.string 3 0 [0x41, 0x20] .xor) := by decide

/-- One packet for each of R78 (a) to (f), and one legal packet beside each boundary. -/
theorem witness_IllegalPacketsAreExactlyR78 :
    (presented 0x2300 [] (fresh 10 12)).port = [.packet ⟨0x2300, []⟩] ∧
    Illegal ⟨0x2300, []⟩ ∧ Illegal ⟨0x0910, []⟩ ∧ Illegal ⟨0x0901, []⟩ ∧
    Illegal ⟨0x2208, [0, 0, 0]⟩ ∧ Illegal ⟨0x2205, [0, 0, 0]⟩ ∧ Illegal ⟨0x2200, [0, 0]⟩ ∧
    ¬Illegal ⟨0x2204, [0, 0, 0]⟩ ∧ ¬Illegal ⟨0x0900, []⟩ ∧ ¬Illegal ⟨0x160C, [0, 0, 0]⟩ := by
  refine ⟨rfl, .inl (by decide), .inr (.inl (by decide)), .inr (.inr (.inl (by decide))),
    .inr (.inr (.inr (.inl (by decide)))), .inr (.inr (.inr (.inr (.inl (by decide))))),
    .inr (.inr (.inr (.inr (.inr ?_)))), ?_, ?_, ?_⟩
  · rintro ⟨-, -, -, -, -, h⟩
    obtain ⟨n, hn, -⟩ := h (by decide)
    cases hn
  all_goals
    rintro (h | h | h | h | h | h)
    all_goals first
      | exact absurd h (by decide)
      | exact h (by refine ⟨?_, ?_, ?_, ?_, ?_, ?_⟩ <;>
          first
            | exact fun _ => ⟨0, by decide, by decide⟩
            | decide)

theorem witness_StepRunsTheDecodedCommand :
    (presented 0x2204 [1, 2, 0] (fresh 10 12)).port = [.packet ⟨0x2204, [1, 2, 0]⟩] ∧
    decode ⟨0x2204, [1, 2, 0]⟩ = .ok (.string 1 2 [] .not) := ⟨rfl, by decide⟩

theorem witness_TableWordRunsItsCommand :
    decodeTableWord 16 0x2204 = some (.string 0 0 [] .not) := by decide

theorem witness_ResetStateHasTheSpecValues :
    State.reset = State.resetWith Config.cfg128 ∧ Instr.display.mnemonic ≠ .init := by decide

theorem witness_ResetAndIdleSteps :
    ({ fresh 10 12 with port := [.reset] } : State).port = [.reset] ∧ (fresh 10 12).port = [] :=
  ⟨rfl, rfl⟩

/-- A state before INIT and one after it; the step taken writes a pixel. -/
theorem witness_EveryStepKeepsTheInvariant :
    State.reset.Inv ∧ (∃ t, step State.reset = .next t) ∧
    (presented 0x0408 [9, 11] (fresh 10 12)).Inv ∧
    ∃ t, step (presented 0x0408 [9, 11] (fresh 10 12)) = .next t :=
  ⟨by constructor <;> simp [State.reset, State.resetWith], ⟨_, rfl⟩, (ready_presented _ _).1,
    exists_step (by decide)⟩

theorem witness_NoStepStops :
    (presented 0x2200 [0, 0, 1, 0x41] text).Inv ∧
    FontsWellFormed (presented 0x2200 [0, 0, 1, 0x41] text).cfg :=
  ⟨(ready_of_fresh rfl rfl rfl (.inr rfl) (by decide) (by decide) (by decide) : Ready _).1,
    fonts_wellFormed⟩

theorem witness_HeaderPaddingAndSizesAreKept :
    Ready (presented 0x1108 [9, 6, 10] (fresh 10 12)) ∧
    (∀ es, (presented 0x1108 [9, 6, 10] (fresh 10 12)).port ≠ .reset :: es) ∧
    ∃ t, step (presented 0x1108 [9, 6, 10] (fresh 10 12)) = .next t :=
  ⟨ready_presented _ _, nofun, exists_step (by decide)⟩

/-- One command for each of the clauses. -/
theorem witness_EachRegisterHasOnlyItsWriters :
    (∃ t, exec (.setpixel 9 11 true .set) (fresh 10 12) = .next t) ∧
    (∃ t, exec (.getpixel 9 11) (fresh 10 12) = .next t) ∧
    (∃ t, exec .display (fresh 10 12) = .next t) :=
  ⟨exists_next (by decide), exists_next (by decide), exists_next (by decide)⟩

theorem witness_OnlyDisplayEmitsBytes :
    (∃ t, step (presented 0x3000 [] (fresh 10 12)) = .next t) ∧
    stateAfter (fun t => t.frames.length) 0x3000 [] (fresh 10 12) = some 1 :=
  ⟨exists_step (by decide), by decide⟩

theorem witness_StateCheckOfEveryCommand :
    (fresh 10 12).alloc = true ∧ State.reset.alloc = false ∧ Instr.display.mnemonic ≠ .init ∧
    exec .display State.reset = .next (State.reset.raise .errState) ∧
    (State.reset.raise .errState).responses = State.reset.responses ++ [⟨.errState, 0⟩] :=
  ⟨rfl, rfl, by decide, rfl, rfl⟩

/-- The size check fails at w = 0, h = 0 and one byte above MEM_BYTES, and passes at MEM_BYTES. -/
theorem witness_AllocErrorExactlyWhenStorageDoesNotFit :
    State.reset.alloc = false ∧ SizeRefused 0 64 State.reset ∧ SizeRefused 128 0 State.reset ∧
    SizeRefused 1025 8 State.reset ∧ ¬SizeRefused 1024 8 State.reset ∧
    ¬SizeRefused 1 1 State.reset ∧
    exec (.init 0 64) State.reset = .next (State.reset.raise .errAlloc) ∧
    (State.reset.raise .errAlloc).responses = State.reset.responses ++ [⟨.errAlloc, 0⟩] := by
  refine ⟨rfl, ?_, ?_, ?_, ?_, ?_, rfl, rfl⟩ <;> unfold SizeRefused <;> decide

/-- A packet for each outcome: ERR_ILLEGAL before ERR_STATE, ERR_STATE twice, ERR_ALLOC, and OK for INIT and for another command. -/
theorem witness_FirstFailingCheckDecidesTheStatus :
    Illegal ⟨0x0101, [10, 12]⟩ ∧ ¬Illegal ⟨0x0100, [10, 12]⟩ ∧ ¬Illegal ⟨0x3000, []⟩ ∧
    opc ⟨0x0100, [10, 12]⟩ = 0x01 ∧ opc ⟨0x3000, []⟩ ≠ 0x01 ∧ State.reset.alloc = false ∧
    (fresh 10 12).alloc = true ∧ ¬SizeRefused 10 12 State.reset ∧ SizeRefused 128 65 State.reset ∧
    (∃ t, step (presented 0x0101 [10, 12] (fresh 10 12)) = .next t) ∧
    (∃ t, step (presented 0x0100 [10, 12] (fresh 10 12)) = .next t) ∧
    (∃ t, step (presented 0x3000 [] State.reset) = .next t) ∧
    (∃ t, step (presented 0x0100 [128, 65] State.reset) = .next t) ∧
    (∃ t, step (presented 0x0100 [10, 12] State.reset) = .next t) ∧
    ∃ t, step (presented 0x3000 [] (fresh 10 12)) = .next t := by
  refine ⟨.inr (.inr (.inl (by decide))), ?_, ?_, by decide, by decide, rfl, rfl,
    by unfold SizeRefused; decide, by unfold SizeRefused; decide, exists_step (by decide),
    exists_step (by decide), exists_step (by decide), exists_step (by decide),
    exists_step (by decide), exists_step (by decide)⟩
  all_goals
    rintro (h | h | h | h | h | h)
    all_goals first
      | exact absurd h (by decide)
      | exact h ⟨by decide, by decide, by decide, by decide, by decide, fun e => absurd e (by decide)⟩

theorem witness_OneResponsePerPacket :
    (presented 0x0300 [9, 11] (fresh 10 12)).port = [.packet ⟨0x0300, [9, 11]⟩] ∧
    ∃ t, step (presented 0x0300 [9, 11] (fresh 10 12)) = .next t :=
  ⟨rfl, exists_step (by decide)⟩

theorem witness_ErrorsChangeNothing :
    (presented 0x0500 [] (fresh 10 12)).port = [.packet ⟨0x0500, []⟩] ∧
    step (presented 0x0500 [] (fresh 10 12)) = .next ((fresh 10 12).raise .errIllegal) ∧
    ((fresh 10 12).raise .errIllegal).responses =
      (presented 0x0500 [] (fresh 10 12)).responses ++ [⟨.errIllegal, 0⟩] :=
  ⟨rfl, rfl, rfl⟩

/-- The first and the last pixel of 10 × 12 pixels, one that shares a byte with the last and one that does not. -/
theorem witness_PixelAddressesAreR43 :
    (fresh 10 12).w = 10 ∧ (fresh 10 12).h = 12 ∧
    ((0 ≤ (0 : Int) ∧ (0 : Int) < (fresh 10 12).w.toNat) ∧
      (0 ≤ (0 : Int) ∧ (0 : Int) < (fresh 10 12).h.toNat)) ∧
    ([7, 8, 11].all fun y : Int =>
      decide ((0 ≤ (9 : Int) ∧ (9 : Int) < (fresh 10 12).w.toNat) ∧
        (0 ≤ y ∧ y < (fresh 10 12).h.toNat))) = true ∧
    (fresh 128 64).w = 128 ∧ (fresh 128 64).h = 64 := by decide

theorem witness_InitAllocates :
    (fresh 10 12).alloc = true ∧ State.reset.alloc = false ∧ SizeRefused 128 65 State.reset ∧
    ¬SizeRefused 128 64 State.reset := by
  refine ⟨rfl, rfl, ?_, ?_⟩ <;> unfold SizeRefused <;> decide

theorem witness_ClearZeroesThePixels : State.reset.alloc = false ∧ Ready text := ⟨rfl, ready_text⟩

/-- The last pixel in bounds, and the first coordinates out of bounds on each side. -/
theorem witness_GetpixelReadsTheStoredBit :
    Ready text ∧
    ((0 ≤ (9 : Word).toInt ∧ (9 : Word).toInt < text.w.toNat) ∧
      (0 ≤ (11 : Word).toInt ∧ (11 : Word).toInt < text.h.toNat)) ∧
    (0xFFFF : Word).toInt < 0 ∧ text.w.toNat ≤ (10 : Word).toInt ∧
    text.h.toNat ≤ (12 : Word).toInt := ⟨ready_text, by decide⟩

/-- The two gates at their edges: inside both, past the clip, past the bounds. -/
theorem witness_SetpixelStoresTheMergedBit :
    Ready text ∧ storeAddr text (4 : Word).toInt (9 : Word).toInt = some 10 ∧
    storeAddr text (5 : Word).toInt (9 : Word).toInt = none ∧
    storeAddr (fresh 10 12) (9 : Word).toInt (12 : Word).toInt = none := ⟨ready_text, by decide⟩

theorem witness_XorTwiceRestoresTheBuffer : Ready text := ready_text

theorem witness_GetpixelReadsWhatSetpixelStored :
    Ready text ∧ InBounds text (4 : Word).toInt (9 : Word).toInt ∧
    InClip text (4 : Word).toInt (9 : Word).toInt := ⟨ready_text, by decide⟩

theorem witness_ClipCommandsWriteTheClipRegisters : text.alloc = true := rfl

/-- Inside, and at both ends of the clip {4, 4, 3, 2}, and one past them. -/
theorem witness_ClipGateIsClosedAtBothEnds :
    Ready text ∧ InBounds text (4 : Word).toInt (4 : Word).toInt ∧
    InBounds text (7 : Word).toInt (6 : Word).toInt ∧
    InBounds text (8 : Word).toInt (7 : Word).toInt := ⟨ready_text, by decide⟩

/-- The last pixel is in bounds, and (10, 12) is in the default clip though out of bounds. -/
theorem witness_DefaultClipAdmitsThePixelsInBounds :
    Ready text ∧ (∃ t, exec .clrclip text = .next t) ∧ InBounds (fresh 10 12) 9 11 ∧
    InClip (fresh 10 12) 10 12 := ⟨ready_text, exists_next (by decide), by decide⟩

theorem witness_PixelsOutsideTheClipAreKept :
    Ready text ∧ (Instr.fillrect 0 0 9 11 true .set).mnemonic ≠ .clear ∧
    (∃ t, exec (.fillrect 0 0 9 11 true .set) text = .next t) ∧ InBounds text 5 9 ∧
    ¬InClip text 5 9 := ⟨ready_text, by decide, exists_next (by decide), by decide⟩

theorem witness_ReadsAndClearIgnoreTheClip :
    (∃ t, exec (.getpixel 9 11) text = .next t) ∧ (∃ t, exec .clear text = .next t) ∧
    ∃ t, exec .display text = .next t :=
  ⟨exists_next (by decide), exists_next (by decide), exists_next (by decide)⟩

theorem witness_HlineWritesItsRow : Ready text := ready_text

theorem witness_VlineWritesItsColumn : Ready text := ready_text

theorem witness_RectWritesItsFourEdges : Ready text := ready_text

theorem witness_FillrectWritesItsArea : Ready text := ready_text

theorem witness_LineWritesItsPixels : Ready text := ready_text

/-- A rectangle whose four corners are in bounds and in the clip. -/
theorem witness_XorRectangleKeepsTwoCorners :
    Ready text ∧ 1 ≤ (1 : Word).toInt ∧
    (∃ t, exec (.rect 3 3 1 1 true .xor) text = .next t) ∧ InBounds text 4 3 ∧ InClip text 4 3 ∧
    InBounds text 3 4 ∧ InClip text 3 4 ∧ pixRead 4 3 text = .next false ∧
    pixRead 3 3 text = .next false :=
  ⟨ready_text, by decide, exists_next (by decide), by decide, by decide, by decide, by decide, rfl, rfl⟩

theorem witness_NegativeExtentsWriteNothing :
    text.alloc = true ∧ (0xFFFF : Word).toInt < 0 ∧ (0x8000 : Word).toInt < 0 := by decide

/-- Pixels written twice, once, out of the clip and out of bounds. -/
theorem witness_MultiplicityLaw :
    Ready text ∧ InBounds text 4 9 ∧ pixRead 4 9 text = .next false ∧ InBounds text 5 9 ∧
    ¬InClip text 5 9 ∧ [((4 : Int), (9 : Int)), (5, 9), (4, 9)].Perm [(5, 9), (4, 9), (4, 9)] :=
  ⟨ready_text, by decide, rfl, by decide, by decide, by decide⟩

theorem witness_CircleWritesItsPasses : Ready text := ready_text

theorem witness_FillcircleWritesItsChords : Ready text := ready_text

theorem witness_CirclePassesAreBounded :
    (-1 : Int) < 0 ∧ (0 : Int) ≤ 0 ∧ ((0 : Int), (-1 : Int)) ∈ circlePasses 0 ∧
    ((2 : Int), (1 : Int)) ∈ circlePasses 3 := by decide

theorem witness_SmallXorCircleChangesNothing :
    Ready text ∧ (0 : Word).toInt = 0 ∧ (1 : Word).toInt = 1 := ⟨ready_text, by decide⟩

theorem witness_FillcircleContainsCircle :
    ((10 : Int), (6 : Int)) ∈ circlePixels 7 7 3 := by decide

theorem witness_SetfontSelectsOrUnsets :
    text.alloc = true ∧ (0 : Word).toNat < text.cfg.fonts.length ∧
    text.cfg.fonts.length ≤ (1 : Word).toNat := by decide

theorem witness_GlyphWritesItsSetBits : Ready text ∧ FontsWellFormed text.cfg :=
  ⟨ready_text, fonts_wellFormed⟩

theorem witness_StringWritesItsGlyphs : Ready text ∧ FontsWellFormed text.cfg :=
  ⟨ready_text, fonts_wellFormed⟩

theorem witness_StringCursorFitsTheResponse :
    Ready text ∧ FontsWellFormed text.cfg ∧
    (Instr.string 0x7FFF 0 [0x41, 0x20, 0x42] .or).wellFormed = true :=
  ⟨ready_text, fonts_wellFormed, by decide⟩

/-- TF1 with a bitmap that is one byte short. -/
def shortFont : Font := { Font.tf1 with bitmap := [0x57, 0xDA, 0xD7] }

theorem witness_MalformedFontIsRefused :
    ({ text with cfg := { text.cfg with fonts := [shortFont] } } : State).alloc = true ∧
    selected { text with cfg := { text.cfg with fonts := [shortFont] } } = some shortFont ∧
    fontWellFormed shortFont = false := ⟨rfl, rfl, by decide⟩

theorem witness_DisplayEmitsTheBuffer : State.reset.alloc = false ∧ Ready text := ⟨rfl, ready_text⟩

/-- A memory that differs above SIZE, on an allocated state; any memory, on an unallocated one. -/
theorem witness_UnspecifiedBytesAreUnobservable :
    (∀ a, (fresh 10 12).alloc = true → a < (fresh 10 12).size →
      ((fresh 10 12).fb.write 21 0xFF).read a = (fresh 10 12).fb.read a) ∧
    (∃ t, exec .display (fresh 10 12) = .next t) ∧ State.reset.alloc = false ∧
    ∃ t, exec (.init 10 12) State.reset = .next t := by
  refine ⟨fun a _ ha => ?_, exists_next (by decide), rfl, exists_next (by decide)⟩
  have h21 : (fresh 10 12).size = 21 := by decide
  rw [Memory.read_write, if_neg (by omega)]

theorem witness_OutputsAreNeverReadBack :
    ∃ t, exec (.setpixel 9 11 true .set) (fresh 10 12) = .next t := exists_next (by decide)

end Sys2Proof.Tests
end

section
/-! What one step can do, and what every step that is not a reset keeps of an allocated storage (R31). -/

namespace Sys2Proof.Machine

/-! ## The inversion of `step` -/

/-- A step idles, takes a reset, refuses an illegal packet, or runs the command of a legal one. -/
theorem step_next {s t : State} (h : step s = .next t) :
    (s.port = [] ∧ t = s) ∨
    (∃ es, s.port = .reset :: es ∧ t = (s.withPort es).resetEvent) ∨
    (∃ p es e, s.port = .packet p :: es ∧ decode p = .error e ∧
      t = (s.withPort es).raise .errIllegal) ∨
    (∃ p es i, s.port = .packet p :: es ∧ decode p = .ok i ∧ exec i (s.withPort es) = .next t) := by
  unfold step at h
  match hp : s.port with
  | [] => rw [hp] at h; cases h; exact .inl ⟨rfl, rfl⟩
  | .reset :: es => rw [hp] at h; cases h; exact .inr (.inl ⟨es, rfl, rfl⟩)
  | .packet p :: es =>
    rw [hp] at h
    simp only [runEvent, acceptPacket] at h
    cases hd : decode p with
    | error e => rw [hd] at h; cases h; exact .inr (.inr (.inl ⟨p, es, e, rfl, hd, rfl⟩))
    | ok i => rw [hd] at h; exact .inr (.inr (.inr ⟨p, es, i, rfl, hd, h⟩))

/-! ## The padding bits of a column (R31 (b)) -/

/-- The index of the byte of column x that holds the rows of the last page. -/
def State.lastPageByte (s : State) (x : Nat) : Nat := headerSize + x * s.pages + (s.pages - 1)

/-- The header byte is not a byte that a pixel write stores to. -/
theorem storeAddr_ne_header (s : State) (x y : Int) : storeAddr s x y ≠ some 0 := by
  intro h
  obtain ⟨⟨hb, -⟩, ha⟩ := storeAddr_eq_some.1 h
  have := (addr_bounds hb).1
  omega

/-- A padding bit belongs to a row at or below H, so no pixel write stores to it. -/
theorem rowBit_lt_of_storeAddr_lastPageByte {s : State} {x : Nat} {px py : Int}
    (hh : s.h.toNat % 8 ≠ 0) (hs : storeAddr s px py = some (s.lastPageByte x)) :
    rowBit py < s.h.toNat % 8 := by
  obtain ⟨⟨⟨-, hy0, hy1⟩, -⟩, ha⟩ := storeAddr_eq_some.1 hs
  have hp := page_lt hy0 hy1
  obtain ⟨-, hpage⟩ : px.toNat = x ∧ py.toNat / 8 = s.pages - 1 :=
    column_page_unique hp (by omega) (by unfold addr State.lastPageByte at ha; omega)
  unfold State.pages pagesOf at hpage
  unfold rowBit
  omega

theorem hits_padding {s : State} {x k : Nat} (hh : s.h.toNat % 8 ≠ 0) (hk : s.h.toNat % 8 ≤ k)
    (ps : List Pixel) : hits s (s.lastPageByte x) k ps = 0 := by
  refine List.countP_eq_zero.2 fun p _ hp => ?_
  obtain ⟨hs, hb⟩ := of_decide_eq_true hp
  have := rowBit_lt_of_storeAddr_lastPageByte hh hs
  omega

theorem plotMemory_padding {s : State} {x k : Nat} (hh : s.h.toNat % 8 ≠ 0)
    (hk : s.h.toNat % 8 ≤ k) (v : Bool) (m : Mode) (ps : List Pixel) (fb : Memory) :
    (plotMemory s v m ps fb).bitAt (s.lastPageByte x) k = fb.bitAt (s.lastPageByte x) k := by
  rw [plotMemory_bitAt, hits_padding hh hk, Function.iterate_zero, Option.map_id, id]

/-- R31 (b) on bits: no padding bit is 1. -/
theorem paddingClear_iff {s : State} :
    s.PaddingClear ↔ ∀ x k : Nat, x < s.w.toNat → s.h.toNat % 8 ≠ 0 → s.h.toNat % 8 ≤ k → k < 8 →
      s.fb.bitAt (s.lastPageByte x) k ≠ some true := by
  have hbit : ∀ a k, s.fb.bitAt a k ≠ some true ↔
      ∀ b, s.fb.read a = some b → b.getLsbD k = false := by simp [Memory.bitAt]
  simp only [hbit]
  exact ⟨fun h x k hx hh hk hk8 b => h x k b hx hh hk hk8,
    fun h x k b hx hh hk hk8 => h x k hx hh hk hk8 b⟩

/-! ## What the commands of an allocated state keep of the storage -/

/-- `t` has the configuration, ALLOC, sizes and header byte of `s`, and clear padding bits if `s` has. -/
structure State.KeepsStorage (s t : State) : Prop where
  cfg     : t.cfg = s.cfg
  alloc   : t.alloc = s.alloc
  w       : t.w = s.w
  h       : t.h = s.h
  header  : t.fb.read 0 = s.fb.read 0
  padding : s.PaddingClear → t.PaddingClear

theorem State.KeepsStorage.trans {s t u : State} (h : s.KeepsStorage t) (h' : t.KeepsStorage u) :
    s.KeepsStorage u where
  cfg     := h'.cfg.trans h.cfg
  alloc   := h'.alloc.trans h.alloc
  w       := h'.w.trans h.w
  h       := h'.h.trans h.h
  header  := h'.header.trans h.header
  padding := h'.padding ∘ h.padding

theorem State.KeepsStorage.refl (s : State) : s.KeepsStorage s := ⟨rfl, rfl, rfl, rfl, rfl, id⟩

theorem State.keepsStorage_withPort (es : List PortEvent) (s : State) :
    s.KeepsStorage (s.withPort es) := ⟨rfl, rfl, rfl, rfl, rfl, id⟩

theorem State.keepsStorage_respond (v : Int) (s : State) : s.KeepsStorage (s.respond v) :=
  ⟨rfl, rfl, rfl, rfl, rfl, id⟩

theorem State.keepsStorage_raise (e : Status) (s : State) : s.KeepsStorage (s.raise e) :=
  ⟨rfl, rfl, rfl, rfl, rfl, id⟩

theorem State.keepsStorage_setClip (x y w h : Word) (s : State) :
    s.KeepsStorage (s.setClip x y w h) := ⟨rfl, rfl, rfl, rfl, rfl, id⟩

theorem State.keepsStorage_setFontSel (f : Word) (s : State) :
    s.KeepsStorage (s.setFontSel f) := ⟨rfl, rfl, rfl, rfl, rfl, id⟩

theorem State.keepsStorage_emitFrame (bs : List Byte) (s : State) :
    s.KeepsStorage (s.emitFrame bs) := ⟨rfl, rfl, rfl, rfl, rfl, id⟩

/-- Writing pixels keeps the padding bits clear: none of the writes stores to one. -/
theorem paddingClear_plotMemory {s : State} (hs : s.PaddingClear) (v : Bool) (m : Mode)
    (ps : List Pixel) : State.PaddingClear { s with fb := plotMemory s v m ps s.fb } := by
  rw [paddingClear_iff] at hs ⊢
  intro x k hx hh hk hk8
  have hkept := plotMemory_padding (s := s) (x := x) hh hk v m ps s.fb
  exact hkept ▸ hs x k hx hh hk hk8

theorem State.keepsStorage_plotMemory (v : Bool) (m : Mode) (ps : List Pixel) (s : State) :
    s.KeepsStorage { s with fb := plotMemory s v m ps s.fb } where
  cfg     := rfl
  alloc   := rfl
  w       := rfl
  h       := rfl
  header  := plotMemory_read_of_not_stored ps s.fb 0 fun p _ => storeAddr_ne_header s p.1 p.2
  padding := fun hs => paddingClear_plotMemory hs v m ps

/-- CLEAR begins after the header byte, and a byte it writes has every bit 0 (R107). -/
theorem State.keepsStorage_clear (n : Nat) (s : State) :
    s.KeepsStorage { s with fb := s.fb.fill headerSize n 0 } where
  cfg     := rfl
  alloc   := rfl
  w       := rfl
  h       := rfl
  header  := (Memory.read_fill ..).trans (if_neg (by unfold headerSize; omega))
  padding := by
    intro hs x k b hx hh hk hk8 hr
    rw [Memory.read_fill] at hr
    split at hr
    next => cases hr; exact BitVec.getLsbD_zero
    next => exact hs x k b hx hh hk hk8 hr

theorem Effect.keepsStorage {i : Instr} {s u : State} {v : Int} (h : Effect i s u v) :
    s.KeepsStorage u := by
  obtain ⟨b, m, ps, rfl⟩ | ⟨-, -, rfl⟩ | ⟨x, y, w, hh, -, rfl⟩ | ⟨idx, -, rfl⟩ | ⟨bs, -, rfl⟩ :=
    h.fb_only
  · exact s.keepsStorage_plotMemory b m ps
  · exact s.keepsStorage_clear _
  · exact s.keepsStorage_setClip x y w hh
  · exact s.keepsStorage_setFontSel _
  · exact s.keepsStorage_emitFrame bs

/-- With ALLOC = 1 a command raises an error or has its effect; the two other ways to complete are INIT's with ALLOC = 0. -/
theorem exec_keepsStorage {i : Instr} {s t : State} (ha : s.alloc = true)
    (h : exec i s = .next t) : s.KeepsStorage t := by
  cases exec_next h with
  | stateError _ ht => exact ht ▸ s.keepsStorage_raise _
  | allocError _ hn => exact absurd (ha.symm.trans hn) (by decide)
  | init _ hn => exact absurd (ha.symm.trans hn) (by decide)
  | effect _ _ he ht => exact ht ▸ he.keepsStorage.trans (State.keepsStorage_respond _ _)

theorem step_keepsStorage {s t : State} (ha : s.alloc = true) (hn : ∀ es, s.port ≠ .reset :: es)
    (h : step s = .next t) : s.KeepsStorage t := by
  obtain ⟨-, rfl⟩ | ⟨es, hp, -⟩ | ⟨p, es, e, -, -, rfl⟩ | ⟨p, es, i, -, -, hx⟩ := step_next h
  · exact .refl _
  · exact absurd hp (hn es)
  · exact (s.keepsStorage_withPort es).trans (State.keepsStorage_raise _ _)
  · exact (s.keepsStorage_withPort es).trans (exec_keepsStorage ha hx)

/-- Settles O12: no step but a reset touches the sizes, the header byte or a padding bit. -/
theorem headerPaddingAndSizesAreKept : Obligations.HeaderPaddingAndSizesAreKept := by
  intro s t hi ha hn h
  have hk := step_keepsStorage ha hn h
  refine ⟨hk.alloc.trans ha, ?_, hk.padding (hi.padding ha), hk.w, hk.h, ?_, ?_⟩
  · rw [hk.header, hk.cfg, hi.header ha]
  · rw [State.pages, State.pages, hk.h]
  · rw [State.size, State.size, hk.w, hk.h]

end Sys2Proof.Machine
end

section
/-! Addr as a formula on integers, and which pixels in bounds share a byte (R43, R44). -/

namespace Sys2Proof.Machine

/-- R43: Addr is the formula of the rule on the integers, once neither coordinate is negative. -/
theorem addr_eq_of_nonneg (s : State) {x y : Int} (hx : 0 ≤ x) (hy : 0 ≤ y) :
    (addr s x y : Int) = x * s.pages + y / 8 + 1 := by
  simp only [addr, headerSize, Nat.cast_add, Nat.cast_mul, Int.natCast_ediv, Int.toNat_of_nonneg hx,
    Int.toNat_of_nonneg hy, Nat.cast_ofNat, Nat.cast_one]

/-- R43: two pixels in bounds share a byte exactly when they lie in the same column and page. -/
theorem addr_eq_addr_iff {s : State} {x y x' y' : Int} (h : InBounds s x y)
    (h' : InBounds s x' y') : addr s x y = addr s x' y' ↔ x = x' ∧ y / 8 = y' / 8 := by
  obtain ⟨⟨hx0, -⟩, hy0, hy1⟩ := h
  obtain ⟨⟨hx0', -⟩, hy0', hy1'⟩ := h'
  constructor
  · intro ha
    obtain ⟨hx, hpage⟩ :=
      column_page_unique (page_lt hy0 hy1) (page_lt hy0' hy1') (Nat.add_right_cancel ha)
    omega
  · rintro ⟨rfl, hpage⟩
    have he := addr_eq_of_nonneg s hx0 hy0
    rw [hpage, ← addr_eq_of_nonneg s hx0 hy0'] at he
    exact Int.ofNat.inj he

/-- R43, R44: two pixels in bounds share a byte and its bit exactly when they are one pixel. -/
theorem addr_rowBit_eq_iff {s : State} {x y x' y' : Int} (h : InBounds s x y)
    (h' : InBounds s x' y') :
    addr s x y = addr s x' y' ∧ rowBit y = rowBit y' ↔ x = x' ∧ y = y' := by
  constructor
  · rintro ⟨ha, hb⟩
    exact addr_rowBit_inj h h' ha hb
  · rintro ⟨rfl, rfl⟩
    exact ⟨rfl, rfl⟩

/-- Addr reads nothing of the state but H. -/
theorem addr_of_h {s : State} {h : Word} (hh : s.h = h) (x y : Int) :
    addr s x y = x.toNat * pagesOf h.toNat + y.toNat / 8 + headerSize := by
  rw [addr, State.pages, hh]

/-- Settles O20, by the uniqueness of a byte's column and page; the examples are the formula with H put in. -/
theorem pixelAddressesAreR43 : Obligations.PixelAddressesAreR43 := by
  refine ⟨fun s x y h => ?_,
    fun s x y x' y' h h' => ⟨addr_eq_addr_iff h h', addr_rowBit_eq_iff h h'⟩,
    fun s _ hh => ?_, fun s _ hh => ?_⟩
  · obtain ⟨hlo, hhi⟩ := addr_bounds h
    obtain ⟨⟨hx, -⟩, hy, -⟩ := h
    exact ⟨addr_eq_of_nonneg s hx hy, hlo, Nat.le_sub_one_of_lt hhi⟩
  · simp only [addr_of_h hh]
    decide
  · simp only [addr_of_h hh]
    decide

end Sys2Proof.Machine
end

section
/-! Which packets decode, on the numbers of the header word and the length (R77, R78), and what a step does with each (R233). -/

namespace Sys2Proof.Claims

open Sys2Proof.Machine

/-! ## The opcode map against the classes of R78 -/

/-- R74, R76: the three classes together list the opcodes of the map, each once. -/
theorem classes_perm_opcodes :
    (classNone ++ classVm ++ classM).Perm (Mnemonic.all.map fun k => k.opcode.toNat) := by decide

theorem mnemonic_mem_all (k : Mnemonic) : k ∈ Mnemonic.all := by cases k <;> decide

/-- R78 (a): an opcode is assigned exactly when the map has a row for it. -/
theorem toNat_mem_classes_iff {o : Byte} :
    o.toNat ∈ classNone ++ classVm ++ classM ↔ ∃ k, mnemonicOf o = some k := by
  simp only [classes_perm_opcodes.mem_iff, List.mem_map, mnemonic_mem_all, true_and,
    BitVec.toNat_inj]
  exact exists_congr fun k => ⟨fun h => h ▸ mnemonicOf_opcode k, opcode_of_mnemonicOf⟩

theorem opcode_mem_classNone_iff {k : Mnemonic} :
    k.opcode.toNat ∈ classNone ↔ k.commandClass = .none := by cases k <;> decide

theorem opcode_mem_classM_iff {k : Mnemonic} :
    k.opcode.toNat ∈ classM ↔ k.commandClass = .m := by cases k <;> decide

theorem opcode_mem_classVm_classM_iff {k : Mnemonic} :
    k.opcode.toNat ∈ classVm ++ classM ↔ k.commandClass ≠ .none := by cases k <;> decide

theorem opc_eq_toNat_opcField (p : Packet) : opc p = (opcField p.header).toNat :=
  (opcField_toNat p.header).symm

theorem opc_eq_of_mnemonicOf {p : Packet} {k : Mnemonic}
    (hk : mnemonicOf (opcField p.header) = some k) : opc p = k.opcode.toNat := by
  rw [opc_eq_toNat_opcField, opcode_of_mnemonicOf hk]

/-! ## The fields of the header word -/

theorem rsvField_eq_zero_iff {p : Packet} : rsvField p.header = 0 ↔ rsv p = 0 := by
  rw [← BitVec.toNat_inj, rsvField_toNat]
  rfl

theorem vField_eq_false_iff {p : Packet} : vField p.header = false ↔ vNum p = 0 := by
  rw [← Bool.not_eq_true, vField_eq_true, vNum]
  omega

/-- R75: the numbers of the modes are those below 5. -/
theorem exists_bits_eq_iff {b : BitVec 3} : (∃ m : Mode, m.bits = b) ↔ b.toNat < 5 := by
  have hmode : ∀ b : BitVec 3, (modeOf b).isSome = true ↔ b.toNat < 5 := by decide
  simp only [← hmode, Option.isSome_iff_exists, modeOf_eq_some]

/-- R78 (c) to (e): the V and M that a class accepts. -/
theorem exists_checkFields_iff {c : CommandClass} {v : Bool} {b : BitVec 3} :
    (∃ m, checkFields c v b = .ok m) ↔
      (c = .none → v = false ∧ b.toNat = 0) ∧ (c = .m → v = false) ∧ (c ≠ .none → b.toNat < 5) := by
  rw [← exists_bits_eq_iff]
  simp only [checkFields_eq_ok]
  cases c with
  | none =>
    have hb : Mode.set.bits = b ↔ b.toNat = 0 := by
      rw [← BitVec.toNat_inj, eq_comm]; rfl
    simp [← hb, and_comm, and_assoc]
  | m => simp [and_comm]
  | vm => simp

/-! ## The length (R77) -/

theorem exists_formatF0_iff {j : Instr} {ops : List Word} :
    (∃ i, formatF0 j ops = some i) ↔ ops.length = 0 := by
  simp [formatF0_eq_some]

theorem exists_formatF1_iff {f : Word → Instr} {ops : List Word} :
    (∃ i, formatF1 f ops = some i) ↔ ops.length = 1 := by
  simp [formatF1_eq_some, List.length_eq_one_iff]

theorem exists_formatF2_iff {f : Word → Word → Instr} {ops : List Word} :
    (∃ i, formatF2 f ops = some i) ↔ ops.length = 2 := by
  simp only [formatF2_eq_some, List.length_eq_two]
  exact ⟨fun ⟨_, a, b, h, _⟩ => ⟨a, b, h⟩, fun ⟨a, b, h⟩ => ⟨_, a, b, h, rfl⟩⟩

theorem exists_formatF3_iff {f : Word → Word → Word → Instr} {ops : List Word} :
    (∃ i, formatF3 f ops = some i) ↔ ops.length = 3 := by
  simp [formatF3_eq_some, List.length_eq_three]

theorem exists_formatF4_iff {f : Word → Word → Word → Word → Instr} {ops : List Word} :
    (∃ i, formatF4 f ops = some i) ↔ ops.length = 4 := by
  simp [formatF4_eq_some, List.length_eq_four]

/-- Format FS takes its words exactly when word 3 is there and counts the words after it. -/
theorem exists_formatFS_iff {f : Word → Word → List Word → Instr} {ops : List Word} :
    (∃ i, formatFS f ops = some i) ↔ ∃ n, ops[2]? = some n ∧ ops.length = 3 + n.toNat := by
  match ops with
  | [] | [_] | [_, _] => simp [formatFS]
  | a :: b :: n :: cs => simp [formatFS, Nat.add_comm 3]

/-- R77: the operand words of a command's packet assemble exactly when the length check passes. -/
theorem exists_assemble_iff {p : Packet} {k : Mnemonic} {v : Bool} {m : Mode}
    (hk : opc p = k.opcode.toNat) :
    (∃ i, assemble k v m p.operands = some i) ↔ LengthOk p := by
  rw [LengthOk, hk, Packet.length, Nat.add_comm]
  cases k
  case clear | clrclip | display => simp [assemble, exists_formatF0_iff, Mnemonic.opcode]
  case setfont => simp [assemble, exists_formatF1_iff, Mnemonic.opcode]
  case init | getpixel | setpixel => simp [assemble, exists_formatF2_iff, Mnemonic.opcode]
  case hline | vline | circle | fillcircle | glyph =>
    simp [assemble, exists_formatF3_iff, Mnemonic.opcode]
  case setclip | rect | fillrect | line =>
    simp [assemble, exists_formatF4_iff, Mnemonic.opcode]
  case string =>
    simp [assemble, exists_formatFS_iff, Mnemonic.opcode, Nat.add_comm 3, Nat.add_comm 4]

/-! ## Legal packets -/

/-- R78 (b) to (f), once the opcode is a command's. -/
theorem not_illegal_iff {p : Packet} {k : Mnemonic} (hk : opc p = k.opcode.toNat)
    (ha : opc p ∈ classNone ++ classVm ++ classM) :
    ¬Illegal p ↔ rsv p = 0 ∧
      ((k.commandClass = .none → vNum p = 0 ∧ mNum p = 0) ∧ (k.commandClass = .m → vNum p = 0) ∧
        (k.commandClass ≠ .none → mNum p < 5)) ∧ LengthOk p := by
  simp only [Illegal, ha, not_true_eq_false, false_or]
  rw [hk, opcode_mem_classNone_iff, opcode_mem_classM_iff, opcode_mem_classVm_classM_iff]
  simp only [← Nat.not_le]
  tauto

/-- R78, R79: the packets that decode are exactly the legal ones. -/
theorem exists_decode_iff {p : Packet} : (∃ i, decode p = .ok i) ↔ ¬Illegal p := by
  by_cases ha : opc p ∈ classNone ++ classVm ++ classM
  · obtain ⟨k, hk⟩ := toNat_mem_classes_iff.1 (opc_eq_toNat_opcField p ▸ ha)
    have hopc := opc_eq_of_mnemonicOf hk
    rw [not_illegal_iff hopc ha, ← rsvField_eq_zero_iff, ← vField_eq_false_iff, mNum,
      ← mField_toNat, ← exists_checkFields_iff]
    simp only [decode_eq_ok, hk, Option.some.injEq]
    constructor
    · rintro ⟨i, _, m, rfl, hr, hm, hi⟩
      exact ⟨hr, ⟨m, hm⟩, (exists_assemble_iff hopc).1 ⟨i, hi⟩⟩
    · rintro ⟨hr, ⟨m, hm⟩, hl⟩
      obtain ⟨i, hi⟩ := (exists_assemble_iff hopc).2 hl
      exact ⟨i, k, m, rfl, hr, hm, hi⟩
  · refine iff_of_false ?_ (not_not_intro (.inl ha))
    rintro ⟨i, hi⟩
    obtain ⟨k, -, hk, -⟩ := decode_eq_ok.1 hi
    exact ha (opc_eq_toNat_opcField p ▸ toNat_mem_classes_iff.2 ⟨k, hk⟩)

/-! ## A step on a packet -/

theorem step_of_decode_ok {s : State} {p : Packet} {es : List PortEvent} {i : Instr}
    (hp : s.port = .packet p :: es) (hd : decode p = .ok i) : step s = exec i (s.withPort es) := by
  simp [step, hp, runEvent, acceptPacket, hd]

/-- R233: the refusal looks at nothing of the state. -/
theorem step_of_decode_error {s : State} {p : Packet} {es : List PortEvent} {e : DecodeError}
    (hp : s.port = .packet p :: es) (hd : decode p = .error e) :
    step s = .next ((s.withPort es).raise .errIllegal) := by
  simp [step, hp, runEvent, acceptPacket, hd]

/-- Settles O3: the legal packets are those that decode, and a step runs these and refuses the others. -/
theorem illegalPacketsAreExactlyR78 : Obligations.IllegalPacketsAreExactlyR78 := by
  intro s p es hp
  constructor
  · intro hill
    cases hd : decode p with
    | error e => exact step_of_decode_error hp hd
    | ok i => exact absurd hill (exists_decode_iff.1 ⟨i, hd⟩)
  · intro hleg
    obtain ⟨i, hd⟩ := exists_decode_iff.2 hleg
    exact ⟨i, hd, step_of_decode_ok hp hd⟩

end Sys2Proof.Claims
end

section
/-! The multiplicity law of a list of pixel writes, read through PixRead, and the independence of the order (R109). -/

namespace Sys2Proof.Machine

open Sys2Proof.Claims

/-- R100: the mux of the model is that of the rule's sentence. -/
theorem merge_eq_newBit : merge = newBit := by
  funext m v e
  cases m <;> rfl

/-- R103, R109: what `n` writes of a pixel leave of its bit, where the gate `c` lets them pass. -/
theorem merge_iterate_gated (c : Prop) [Decidable c] (m : Mode) (v e : Bool) (n : Nat) :
    (merge m v)^[if c then n else 0] e =
      if ¬c ∨ n = 0 then e
      else if m = .xor ∧ v = true then (if n % 2 = 0 then e else !e)
      else newBit m v e := by
  rw [merge_iterate, merge_eq_newBit]
  by_cases hc : c
  · simp only [hc, if_true, not_true_eq_false, false_or]
  · simp only [hc, if_false, if_true, not_false_eq_true, true_or]

/-- R101: in bounds, PixRead gives the pixel's bit of its byte. -/
theorem pixRead_eq_next_iff {s : State} {x y : Int} {e : Bool} (hb : InBounds s x y) :
    pixRead x y s = .next e ↔
      addr s x y < s.cfg.memBytes ∧ s.fb.bitAt (addr s x y) (rowBit y) = some e := by
  rw [pixRead, if_pos hb]
  simp only [andThen_eq_next, memRead_eq_next, Memory.bitAt, Option.map_eq_some_iff,
    Host.Outcome.next.injEq, and_assoc, exists_and_left]

/-- R109: after a list of pixel writes a pixel in bounds reads as merged as often as it stands in the list, if the clip admits it. -/
theorem pixRead_plotMemory {s : State} {x y : Int} {e : Bool} (hb : InBounds s x y)
    (h : pixRead x y s = .next e) (v : Bool) (m : Mode) (ps : List Pixel) :
    pixRead x y { s with fb := plotMemory s v m ps s.fb } =
      .next ((merge m v)^[if InClip s x y then ps.count (x, y) else 0] e) := by
  obtain ⟨ha, he⟩ := (pixRead_eq_next_iff hb).1 h
  refine (pixRead_eq_next_iff (s := { s with fb := plotMemory s v m ps s.fb }) hb).2 ⟨ha, ?_⟩
  have hbit := plotMemory_bitAt (s := s) (v := v) (m := m) ps s.fb (addr s x y) (rowBit y)
  rwa [hits_pixel hb, he, Option.map_some] at hbit

/-- R109: the order of the writes does not matter, since a bit depends on how often it is written only. -/
theorem plotMemory_perm {ps qs : List Pixel} (h : qs.Perm ps) (s : State) (v : Bool) (m : Mode)
    {fb : Memory} (hw : fb.wf) : plotMemory s v m qs fb = plotMemory s v m ps fb := by
  refine Memory.ext_bitAt (plotMemory_wf qs hw) (plotMemory_wf ps hw) fun a k _ => ?_
  have hhits : hits s a k qs = hits s a k ps := h.countP_eq _
  rw [plotMemory_bitAt, plotMemory_bitAt, hhits]

/-- Settles O39: each bit is merged as often as its pixel is written, and `merge_iterate_gated` says what that leaves. -/
theorem multiplicityLaw : Obligations.MultiplicityLaw := by
  intro ps v m s ⟨hi, ha⟩
  have hd := hi.drawable ha
  refine ⟨_, plot_eq ps v m hd, rfl, fun x y e hb he => ?_, fun qs hq => ?_⟩
  · rw [pixRead_plotMemory hb he, merge_iterate_gated]
  · rw [plot_eq qs v m hd, plotMemory_perm hq s v m hi.canonical]

end Sys2Proof.Machine
end

section
/-! The one response of a command: which check decides its status (R232, R234, R236). -/

namespace Sys2Proof.Machine

open Sys2Proof.Claims

/-! ## The status of a command -/

/-- The status that the state check and INIT's size check give a command (R232, R234). -/
def commandStatus : Instr → State → Status
  | .init w h, s => if s.alloc then .errState else if InitFits w h s then .ok else .errAlloc
  | _, s => if s.alloc then .ok else .errState

theorem commandStatus_init_of_not_alloc {s : State} (ha : s.alloc = false) (w h : Word) :
    commandStatus (.init w h) s = if InitFits w h s then .ok else .errAlloc := by
  simp [commandStatus, ha]

theorem commandStatus_of_ne_init {i : Instr} (hi : i.mnemonic ≠ .init) (s : State) :
    commandStatus i s = if s.alloc then .ok else .errState := by
  cases i
  case init => exact absurd rfl hi
  all_goals rfl

theorem exists_init_of_mnemonic {i : Instr} (hi : i.mnemonic = .init) : ∃ w h, i = .init w h := by
  cases i
  case init w h => exact ⟨w, h, rfl⟩
  all_goals cases hi

/-- R234: INIT wants ALLOC = 0, every other command ALLOC = 1. -/
theorem commandStatus_eq_errState {i : Instr} {s : State}
    (hc : i.mnemonic = .init ↔ s.alloc = true) : commandStatus i s = .errState := by
  by_cases hi : i.mnemonic = .init
  · obtain ⟨w, h, rfl⟩ := exists_init_of_mnemonic hi
    exact if_pos (hc.1 hi)
  · rw [commandStatus_of_ne_init hi, if_neg (mt hc.2 hi)]

/-- R232: ERR_ALLOC has one cause. -/
theorem init_of_commandStatus_eq_errAlloc {i : Instr} {s : State}
    (h : commandStatus i s = .errAlloc) :
    ∃ w hh, i = .init w hh ∧ s.alloc = false ∧ ¬InitFits w hh s := by
  by_cases hi : i.mnemonic = .init
  · obtain ⟨w, hh, rfl⟩ := exists_init_of_mnemonic hi
    cases ha : s.alloc with
    | true => cases (commandStatus_eq_errState (iff_of_true hi ha)).symm.trans h
    | false =>
      refine ⟨w, hh, rfl, rfl, fun hf => ?_⟩
      rw [commandStatus_init_of_not_alloc ha, if_pos hf] at h
      cases h
  · rw [commandStatus_of_ne_init hi] at h
    split at h <;> cases h

/-! ## The response of a command -/

/-- No effect answers: the response comes after it. -/
theorem Effect.responses_eq {i : Instr} {s u : State} {v : Int} (h : Effect i s u v) :
    u.responses = s.responses := by
  obtain ⟨_, _, _, rfl⟩ | ⟨-, -, rfl⟩ | ⟨_, _, _, _, -, rfl⟩ | ⟨_, -, rfl⟩ | ⟨_, -, rfl⟩ :=
    h.fb_only <;> rfl

/-- R80: a command that completes answers once, with the status its checks give. -/
theorem exec_response {i : Instr} {s t : State} (h : exec i s = .next t) :
    ∃ v, t.responses = s.responses ++ [⟨commandStatus i s, v⟩] := by
  cases exec_next h with
  | stateError hc ht => exact ⟨0, by rw [ht, commandStatus_eq_errState hc]; rfl⟩
  | allocError hi ha hf ht =>
    exact ⟨0, by rw [ht, hi, commandStatus_init_of_not_alloc ha, if_neg hf]; rfl⟩
  | init hi ha hf ht =>
    exact ⟨0, by rw [ht, hi, commandStatus_init_of_not_alloc ha, if_pos hf]; rfl⟩
  | effect hi ha he ht =>
    exact ⟨_, by rw [ht, commandStatus_of_ne_init hi, if_pos ha, State.respond_responses,
      he.responses_eq]⟩

/-! ## INIT with ALLOC = 0 -/

/-- R232: the size check of the rule is that of the model. -/
theorem sizeRefused_iff {w h : Word} {s : State} : SizeRefused w h s ↔ ¬InitFits w h s := by
  unfold SizeRefused InitFits sext16 storageSize headerSize pagesOf
  omega

theorem exec_init_of_not_fits {w h : Word} {s : State} (ha : s.alloc = false)
    (hf : ¬InitFits w h s) : exec (.init w h) s = .next (s.raise .errAlloc) := by
  simp only [exec, execInit, ha, Bool.false_eq_true, if_false, if_neg hf]

/-- R108: a size that fits leaves room for the header byte and the pixel bytes, so no access of INIT faults. -/
theorem exec_init_of_fits {w h : Word} {s : State} (ha : s.alloc = false)
    (hf : InitFits w h s) : exec (.init w h) s = .next ((initState w h s).respond 0) := by
  have ⟨_, _, hsize⟩ := hf
  have hheader : 0 < s.cfg.memBytes := by unfold storageSize headerSize at hsize; omega
  simp only [exec, execInit, ha, Bool.false_eq_true, if_false, if_pos hf]
  exact andThen_eq_next.2 ⟨_, memWrite_eq_next.2 ⟨hheader, rfl⟩,
    andThen_eq_next.2 ⟨_, memFill_eq_next.2 ⟨hsize, rfl⟩, rfl⟩⟩

/-- Settles O16: ERR_ALLOC changes neither ALLOC nor the configuration, so what follows it is the checks of the state before it. -/
theorem allocErrorExactlyWhenStorageDoesNotFit :
    Obligations.AllocErrorExactlyWhenStorageDoesNotFit := by
  constructor
  · intro w h s ha hr
    refine ⟨s.raise .errAlloc, exec_init_of_not_fits ha (sizeRefused_iff.1 hr), rfl,
      fun i hi => exec_of_not_alloc hi ha, fun w' h' hr' => ?_⟩
    have hfits := not_not.1 (mt sizeRefused_iff.2 hr')
    exact ⟨_, exec_init_of_fits ha hfits, rfl, rfl⟩
  · intro i s t v h hv
    obtain ⟨v', hv'⟩ := exec_response h
    obtain ⟨hstatus, -⟩ : commandStatus i s = .errAlloc ∧ v' = v := by
      simpa using hv'.symm.trans hv
    obtain ⟨w, hh, hi, ha, hf⟩ := init_of_commandStatus_eq_errAlloc hstatus
    exact ⟨w, hh, hi, ha, sizeRefused_iff.2 hf⟩

/-! ## The packet of a command -/

theorem opc_of_decode_ok {p : Packet} {i : Instr} (hd : decode p = .ok i) :
    opc p = i.mnemonic.opcode.toNat := by
  obtain ⟨k, m, hk, -, -, hi⟩ := decode_eq_ok.1 hd
  obtain ⟨hmnemonic, -⟩ := assemble_eq_some hi
  rw [opc_eq_of_mnemonicOf hk, hmnemonic]

theorem operandWords_of_decode_ok {p : Packet} {i : Instr} (hd : decode p = .ok i) :
    i.operandWords = p.operands := by
  obtain ⟨k, m, -, -, -, hi⟩ := decode_eq_ok.1 hd
  obtain ⟨-, hwords, -⟩ := assemble_eq_some hi
  exact hwords

/-- R76: opcode 0x01 is INIT's and no other command's. -/
theorem opc_eq_one_iff {p : Packet} {i : Instr} (hd : decode p = .ok i) :
    opc p = 0x01 ↔ i.mnemonic = .init := by
  rw [opc_of_decode_ok hd]
  cases i.mnemonic <;> decide

theorem eq_init_of_decode_ok {p : Packet} {i : Instr} {w h : Word} (hd : decode p = .ok i)
    (ho : opc p = 0x01) (hops : p.operands = [w, h]) : i = .init w h := by
  obtain ⟨w', h', rfl⟩ := exists_init_of_mnemonic ((opc_eq_one_iff hd).1 ho)
  have hwords := (operandWords_of_decode_ok hd).trans hops
  cases hwords
  rfl

/-- Settles O17: an illegal packet never reaches `exec`, and a legal one is answered with its command's status. -/
theorem firstFailingCheckDecidesTheStatus : Obligations.FirstFailingCheckDecidesTheStatus := by
  intro s t p es hp h
  obtain ⟨hillegal, hlegal⟩ := illegalPacketsAreExactlyR78 s p es hp
  by_cases hill : Illegal p
  · cases (hillegal hill).symm.trans h
    exact ⟨⟨.errIllegal, 0⟩, rfl, fun _ => rfl, fun hl => absurd hill hl, fun hl => absurd hill hl,
      fun hl => absurd hill hl⟩
  · obtain ⟨i, hd, hstep⟩ := hlegal hill
    obtain ⟨v, hv⟩ := exec_response (hstep.symm.trans h)
    refine ⟨_, hv, fun hi => absurd hi hill, fun _ hc => ?_, fun _ ho ha w hh hops => ?_,
      fun _ ho ha => ?_⟩
    · exact commandStatus_eq_errState ((opc_eq_one_iff hd).symm.trans hc)
    · rw [eq_init_of_decode_ok hd ho hops, sizeRefused_iff, not_not]
      have hstatus := commandStatus_init_of_not_alloc (s := s.withPort es) ha w hh
      exact ⟨fun hf => hstatus.trans (if_neg hf), fun hf => hstatus.trans (if_pos hf)⟩
    · exact (commandStatus_of_ne_init (mt (opc_eq_one_iff hd).2 ho) _).trans (if_pos ha)

end Sys2Proof.Machine
end

section
/-! The encoder and the decoder are inverse (R72 to R79). -/

namespace Sys2Proof

/-- R74: V and M of a command's header word are those that its class accepts. -/
theorem checkFields_of_command (i : Instr) :
    checkFields i.mnemonic.commandClass i.vBit i.modeArg.bits = .ok i.modeArg := by
  refine checkFields_eq_ok.2 ⟨rfl, ?_⟩
  cases i <;> simp [Instr.mnemonic, Mnemonic.commandClass, Instr.vBit, Instr.modeArg]

/-- Settles O1: each stage of the decoder finds in the packet what the encoder put there. -/
theorem decodeOfEncodeIsTheCommand : Obligations.DecodeOfEncodeIsTheCommand := by
  intro i hi
  refine decode_eq_ok.2 ⟨i.mnemonic, i.modeArg, ?_, ?_, ?_, ?_⟩
  · rw [encode, opcField_headerWord, mnemonicOf_opcode]
  · rw [encode, rsvField_headerWord]
  · rw [encode, vField_headerWord, mField_headerWord, checkFields_of_command]
  · rw [encode, vField_headerWord, assemble_operandWords i hi]

/-- The header word of a packet that decodes is the one its command is encoded with. -/
theorem headerWord_of_decode_ok {p : Packet} {i : Instr} (hd : decode p = .ok i) :
    headerWord i.mnemonic.opcode i.vBit i.modeArg.bits = p.header := by
  obtain ⟨k, m, hk, hr, hc, ha⟩ := decode_eq_ok.1 hd
  obtain ⟨hbits, hnone, hm⟩ := checkFields_eq_ok.1 hc
  obtain ⟨rfl, -, -, hv, hmode⟩ := assemble_eq_some ha
  have hvBit : i.vBit = vField p.header := by
    rw [hv]
    cases hclass : i.mnemonic.commandClass with
    | vm => rfl
    | m => exact (hm hclass).symm
    | none => exact (hnone hclass).1.symm
  have hmodeArg : i.modeArg = m := by
    rw [hmode]
    split
    next hclass => exact (hnone hclass).2.symm
    next => rfl
  rw [opcode_of_mnemonicOf hk, hvBit, hmodeArg, hbits, headerWord_fields _ hr]

/-- Settles O2: the header word is `headerWord_of_decode_ok`, and the operand words are assembled without loss. -/
theorem encodeOfDecodeIsThePacket : Obligations.EncodeOfDecodeIsThePacket := by
  intro p i hd
  obtain ⟨k, m, -, -, -, ha⟩ := decode_eq_ok.1 hd
  obtain ⟨-, hops, hwf, -, -⟩ := assemble_eq_some ha
  refine ⟨hwf, ?_⟩
  rw [encode, headerWord_of_decode_ok hd, hops]

/-- Settles O4, by running the decoder on the words. -/
theorem sampleWordsDecode : Obligations.SampleWordsDecode := by
  unfold Obligations.SampleWordsDecode
  decide

end Sys2Proof
end

section
/-! The converse of the inversion of `exec`, and the invariant: it holds at reset, and every command, every reset and every refused packet keeps it (R24 to R32, R49, R50). -/

namespace Sys2Proof.Machine

/-! ## A command with an effect completes -/

theorem draw_of_plot {ps : List Pixel} {v : Bool} {m : Mode} {s u : State} (ha : s.alloc = true)
    (h : plot ps v m s = .next u) : draw ps v m s = .next (u.respond 0) := by
  rw [draw, whenAllocated_of_alloc ha, h]
  rfl

theorem State.size_pos (s : State) : headerSize ≤ s.size := Nat.le_add_right _ _

theorem memFill_clear {s : State} (hs : s.size ≤ s.cfg.memBytes) :
    memFill headerSize (s.size - headerSize) 0 s =
      .next { s with fb := s.fb.fill headerSize (s.size - headerSize) 0 } :=
  memFill_eq_next.2 ⟨(Nat.add_sub_cancel' s.size_pos).trans_le hs, rfl⟩

/-- R234 (c): with ALLOC = 1 a command whose rule has an effect completes with it. -/
theorem exec_of_effect {i : Instr} {s u : State} {v : Int} (ha : s.alloc = true)
    (h : Effect i s u v) : exec i s = .next (u.respond v) := by
  cases h with
  | hline h | vline h | rect h | fillrect h | line h | circle h | fillcircle h =>
    exact draw_of_plot ha h
  | clear h => simp only [exec, execClear, whenAllocated_of_alloc ha, memFill_clear h, andThen_next]
  | getpixel h => simp only [exec, execGetpixel, whenAllocated_of_alloc ha, h, andThen_next]
  | setpixel h => simp only [exec, execSetpixel, whenAllocated_of_alloc ha, h, andThen_next]
  | setclip => simp only [exec, execSetclip, whenAllocated_of_alloc ha]
  | clrclip => simp only [exec, execClrclip, whenAllocated_of_alloc ha]
  | setfont => simp only [exec, execSetfont, whenAllocated_of_alloc ha]
  | glyph h => simp only [exec, execGlyph, whenAllocated_of_alloc ha, h, andThen_next]
  | string h => simp only [exec, execString, whenAllocated_of_alloc ha, h, andThen_next]
  | display h => simp only [exec, execDisplay, whenAllocated_of_alloc ha, h, andThen_next]

theorem exec_init_of_alloc {s : State} (ha : s.alloc = true) (w h : Word) :
    exec (.init w h) s = .next (s.raise .errState) := by
  simp only [exec, execInit, ha, if_true]

/-- R234: the state check that fails is answered with ERR_STATE and nothing else. -/
theorem exec_of_stateError {i : Instr} {s : State} (hc : i.mnemonic = .init ↔ s.alloc = true) :
    exec i s = .next (s.raise .errState) := by
  by_cases hi : i.mnemonic = .init
  · obtain ⟨w, h, rfl⟩ := exists_init_of_mnemonic hi
    exact exec_init_of_alloc (hc.1 rfl) w h
  · exact exec_of_not_alloc hi (Bool.eq_false_iff.2 (mt hc.2 hi))

/-! ## The invariant at reset -/

/-- The invariant speaks of none of the model's own fields but the configuration. -/
theorem State.Inv.withOutputs {s : State} (h : s.Inv) (es : List PortEvent) (rs : List Response)
    (fs : List (List Byte)) : State.Inv { s with port := es, responses := rs, frames := fs } :=
  ⟨h.canonical, h.fontSel, h.beforeInit, h.extent, h.fits, h.listed, h.header, h.padding⟩

/-- With ALLOC = 0 the invariant is the reset values (R32, R50). -/
theorem State.inv_resetWith (c : Config) : (State.resetWith c).Inv where
  canonical  := List.Pairwise.nil
  fontSel    := .inl rfl
  beforeInit := fun _ => ⟨rfl, rfl, rfl, rfl, rfl, rfl, rfl, rfl⟩
  extent     := nofun
  fits       := nofun
  listed     := nofun
  header     := nofun
  padding    := nofun

/-- Settles O9: nothing is allocated after reset, and every register is at its reset value. -/
theorem invariantHoldsAtReset : Obligations.InvariantHoldsAtReset :=
  ⟨State.inv_resetWith _, State.inv_resetWith⟩

/-! ## The invariant after INIT -/

/-- What INIT leaves in FB: the header byte, 0 in every pixel byte, and the bytes above as they were (R108). -/
theorem read_initState (w h : Word) (s : State) (a : Nat) :
    (initState w h s).fb.read a =
      if a = 0 then some s.cfg.hdrValue
      else if a < storageSize w.toNat h.toNat then some 0 else s.fb.read a := by
  change ((s.fb.write 0 s.cfg.hdrValue).fill headerSize (w.toNat * pagesOf h.toNat) 0).read a = _
  rw [Memory.read_fill, Memory.read_write, storageSize, headerSize]
  grind

theorem storageSize_pos (w h : Nat) : 0 < storageSize w h := by
  unfold storageSize headerSize
  omega

/-- R24: a size that INIT accepts is positive as a word. -/
theorem toNat_of_one_le_sext16 {w : Word} (h : 1 ≤ sext16 w) : 1 ≤ w.toNat ∧ w.toNat ≤ 32767 := by
  have := w.isLt
  rw [sext16, BitVec.toInt_eq_toNat_cond] at h
  split at h <;> omega

theorem State.Inv.initState {w h : Word} {s : State} (hs : s.Inv) (ha : s.alloc = false)
    (hf : InitFits w h s) : (initState w h s).Inv := by
  obtain ⟨hw, hh, hsize⟩ := hf
  obtain ⟨-, -, -, -, -, -, -, hfb⟩ := hs.beforeInit ha
  exact {
    canonical  := Memory.wf_fill (Memory.wf_write hs.canonical _ _) _ _ _
    fontSel    := hs.fontSel
    beforeInit := nofun
    extent     := fun _ => ⟨toNat_of_one_le_sext16 hw, toNat_of_one_le_sext16 hh⟩
    fits       := fun _ => hsize
    listed     := fun _ a => by
      have hpos := storageSize_pos w.toNat h.toNat
      rw [read_initState, hfb]
      change _ ↔ a < storageSize w.toNat h.toNat
      split_ifs <;> simp <;> omega
    header     := fun _ => read_initState w h s 0
    padding    := fun _ x k b _ _ _ _ hr => by
      rw [read_initState, hfb, if_neg (by unfold headerSize; omega)] at hr
      split at hr <;> cases hr
      exact BitVec.getLsbD_zero }

/-! ## The invariant after every other command -/

/-- What an effect leaves of the invariant beside the storage: the canonical form, FONT_SEL and which bytes hold a value. -/
structure State.KeepsListing (s t : State) : Prop where
  canonical : t.fb.wf
  fontSel   : t.fontSel = fontNone ∨ t.fontSel.toNat < t.cfg.nFonts
  listed    : ∀ a, (t.fb.read a).isSome = true ↔ a < s.size

theorem Effect.keepsListing {i : Instr} {s u : State} {v : Int} (hs : s.Inv) (ha : s.alloc = true)
    (h : Effect i s u v) : s.KeepsListing u := by
  have hl := hs.listed ha
  obtain ⟨b, m, ps, rfl⟩ | ⟨-, -, rfl⟩ | ⟨x, y, w, hh, -, rfl⟩ | ⟨idx, -, rfl⟩ | ⟨bs, -, rfl⟩ :=
    h.fb_only
  · refine ⟨plotMemory_wf ps hs.canonical, hs.fontSel, fun a => ?_⟩
    rw [← hl a]
    exact iff_of_eq (congrArg (· = true) (plotMemory_isSome ps s.fb a))
  · refine ⟨Memory.wf_fill hs.canonical _ _ _, hs.fontSel, fun a => ?_⟩
    rw [Memory.read_fill, Nat.add_sub_cancel' s.size_pos]
    split
    next hlt => exact iff_of_true rfl hlt.2
    next => exact hl a
  · exact ⟨hs.canonical, hs.fontSel, hl⟩
  · refine ⟨hs.canonical, ?_, hl⟩
    by_cases hlt : zext16 idx < s.cfg.nFonts
    · rw [if_pos hlt]; exact .inr hlt
    · exact .inl (if_neg hlt)
  · exact ⟨hs.canonical, hs.fontSel, hl⟩

theorem Effect.inv {i : Instr} {s u : State} {v : Int} (hs : s.Inv) (ha : s.alloc = true)
    (h : Effect i s u v) : u.Inv := by
  obtain ⟨hcfg, halloc, hw, hh, hheader, hpadding⟩ := h.keepsStorage
  obtain ⟨hcanonical, hfont, hlisted⟩ := h.keepsListing hs ha
  have hsize : u.size = s.size := by rw [State.size, State.size, hw, hh]
  exact {
    canonical  := hcanonical
    fontSel    := hfont
    beforeInit := fun hn => absurd ((halloc.trans ha).symm.trans hn) (by decide)
    extent     := fun _ => by rw [hw, hh]; exact hs.extent ha
    fits       := fun _ => by rw [hsize, hcfg]; exact hs.fits ha
    listed     := fun _ => by rw [hsize]; exact hlisted
    header     := fun _ => by rw [hheader, hcfg]; exact hs.header ha
    padding    := fun _ => hpadding (hs.padding ha) }

theorem exec_inv {i : Instr} {s t : State} (hs : s.Inv) (h : exec i s = .next t) : t.Inv := by
  cases exec_next h with
  | stateError _ ht => exact ht ▸ hs.withOutputs _ _ _
  | allocError _ _ _ ht => exact ht ▸ hs.withOutputs _ _ _
  | init _ ha hf ht => exact ht ▸ (hs.initState ha hf).withOutputs _ _ _
  | effect _ ha he ht => exact ht ▸ (he.inv hs ha).withOutputs _ _ _

/-- Settles O10: of what a step can do (`step_next`), only a command changes more than the model's own fields. -/
theorem everyStepKeepsTheInvariant : Obligations.EveryStepKeepsTheInvariant := by
  intro s t hs h
  obtain ⟨-, rfl⟩ | ⟨es, -, rfl⟩ | ⟨p, es, e, -, -, rfl⟩ | ⟨p, es, i, -, -, hx⟩ := step_next h
  · exact hs
  · exact (State.inv_resetWith s.cfg).withOutputs _ _ _
  · exact hs.withOutputs _ _ _
  · exact exec_inv (hs.withOutputs es _ _) hx

end Sys2Proof.Machine
end

section
/-! Every command has an effect in a state of a run after INIT, so nothing ever stops the model (R191, R261). -/

namespace Sys2Proof.Machine

open Sys2Proof.Claims

/-! ## The effect of each command with ALLOC = 1 -/

/-- R26: the active font of the rule is that of the model, where the invariant holds and the tables are well formed. -/
theorem activeFont_eq_selected {s : State} (hs : s.Inv) (hf : FontsWellFormed s.cfg) :
    activeFont s = .next (selected s) := activeFont_eq hs.fontSel hf

/-- R102: a pixel write is a list of one pixel, and gives the bit before it where both gates pass. -/
theorem pixWrite_eq_plotMemory {s : State} (hs : s.Drawable) (x y : Int) (v : Bool) (m : Mode) :
    pixWrite x y v m s =
      .next (if InBounds s x y ∧ InClip s x y then
          (s.fb.bitAt (addr s x y) (rowBit y)).getD false else false,
        { s with fb := plotMemory s v m [(x, y)] s.fb }) := by
  rw [pixWrite_eq hs, plotMemory, plotMemory]
  by_cases hg : InBounds s x y ∧ InClip s x y
  · rw [storeAddr_eq_some.2 ⟨hg, rfl⟩, if_pos hg]
  · rw [storeAddr_eq_none.2 hg, if_neg hg]

/-- FB[0..SIZE-1], in ascending index. -/
def State.storage (s : State) : List Byte := (List.range s.size).map fun a => (s.fb.read a).getD 0

theorem memReadAll_eq_storage {s : State} (hs : s.Drawable) :
    memReadAll (List.range s.size) s = .next s.storage := by
  refine memReadAll_eq_next.2 ⟨fun a ha => (List.mem_range.1 ha).trans_le hs.2, ?_⟩
  rw [State.storage, List.map_map]
  refine List.map_congr_left fun a ha => ?_
  obtain ⟨b, hb⟩ := Option.isSome_iff_exists.1 (hs.1 a (List.mem_range.1 ha))
  simp [hb]

/-- GLYPH with an active font, or with none, is one list of pixels (R197). -/
theorem glyphDraw_eq_plotMemory {s : State} {font : Option Font} (hs : s.Drawable)
    (hf : activeFont s = .next font) (x y : Int) (ch : Nat) (m : Mode) :
    glyphDraw x y ch m s = .next (glyphAdvance font ch,
      { s with fb := plotMemory s true m (glyphList font ch x y) s.fb }) := by
  rw [glyphDraw_eq hf, plot_eq _ _ _ hs, andThen_next]

/-- STRING with an active font, or with none, is one list of pixels (R195). -/
theorem stringDraw_eq_plotMemory {s : State} {font : Option Font} (hs : s.Drawable)
    (hf : activeFont s = .next font) (y : Int) (m : Mode) (chs : List Word) (c : Int) :
    stringDraw y m chs c s = .next (stringCursor font chs c,
      { s with fb := plotMemory s true m (stringList font y chs c) s.fb }) := by
  rw [stringDraw_eq hf, plot_eq _ _ _ hs, andThen_next]

theorem exists_effect {i : Instr} {s : State} (hs : s.Inv) (ha : s.alloc = true)
    (hf : FontsWellFormed s.cfg) (hi : i.mnemonic ≠ .init) : ∃ u v, Effect i s u v := by
  have hd := hs.drawable ha
  have hfont := activeFont_eq_selected hs hf
  cases i
  case init => exact absurd rfl hi
  case clear => exact ⟨_, _, .clear hd.2⟩
  case getpixel => exact ⟨_, _, .getpixel (pixRead_eq hd _ _)⟩
  case setpixel => exact ⟨_, _, .setpixel (pixWrite_eq_plotMemory hd _ _ _ _)⟩
  case setclip => exact ⟨_, _, .setclip⟩
  case clrclip => exact ⟨_, _, .clrclip⟩
  case hline => exact ⟨_, _, .hline (plot_eq _ _ _ hd)⟩
  case vline => exact ⟨_, _, .vline (plot_eq _ _ _ hd)⟩
  case rect => exact ⟨_, _, .rect (plot_eq _ _ _ hd)⟩
  case fillrect => exact ⟨_, _, .fillrect (plot_eq _ _ _ hd)⟩
  case line => exact ⟨_, _, .line (plot_eq _ _ _ hd)⟩
  case circle => exact ⟨_, _, .circle (plot_eq _ _ _ hd)⟩
  case fillcircle => exact ⟨_, _, .fillcircle (plot_eq _ _ _ hd)⟩
  case setfont => exact ⟨_, _, .setfont⟩
  case glyph => exact ⟨_, _, .glyph (glyphDraw_eq_plotMemory hd hfont _ _ _ _)⟩
  case string => exact ⟨_, _, .string (stringDraw_eq_plotMemory hd hfont _ _ _ _)⟩
  case display => exact ⟨_, _, .display (memReadAll_eq_storage hd)⟩

/-! ## Progress -/

theorem exec_completes {s : State} (hs : s.Inv) (hf : FontsWellFormed s.cfg) (i : Instr) :
    ∃ t, exec i s = .next t := by
  by_cases hc : i.mnemonic = .init ↔ s.alloc = true
  · exact ⟨_, exec_of_stateError hc⟩
  by_cases hi : i.mnemonic = .init
  · have ha : s.alloc = false := Bool.eq_false_iff.2 fun ha => hc (iff_of_true hi ha)
    obtain ⟨w, h, rfl⟩ := exists_init_of_mnemonic hi
    by_cases hfits : InitFits w h s
    · exact ⟨_, exec_init_of_fits ha hfits⟩
    · exact ⟨_, exec_init_of_not_fits ha hfits⟩
  · have ha : s.alloc = true := by_contra fun ha => hc (iff_of_false hi ha)
    obtain ⟨u, v, he⟩ := exists_effect hs ha hf hi
    exact ⟨_, exec_of_effect ha he⟩

theorem step_completes {s : State} (hs : s.Inv) (hf : FontsWellFormed s.cfg) : s.Safe := by
  match hp : s.port with
  | [] => exact ⟨s, by rw [step, hp]⟩
  | .reset :: es => exact ⟨(s.withPort es).resetEvent, by rw [step, hp]; rfl⟩
  | .packet p :: es =>
    cases hd : decode p with
    | error e => exact ⟨_, step_of_decode_error hp hd⟩
    | ok i =>
      obtain ⟨t, ht⟩ := exec_completes (s := s.withPort es) (hs.withOutputs es _ _) hf i
      exact ⟨t, (step_of_decode_ok hp hd).trans ht⟩

/-- Settles O11: with ALLOC = 1 every command has an effect, and every other packet is answered with an error. -/
theorem noStepStops : Obligations.NoStepStops :=
  fun _ hs hf => ⟨step_completes hs hf, exec_completes hs hf⟩

end Sys2Proof.Machine

namespace Sys2Proof.Claims

open Sys2Proof.Machine

/-- A state of a run after INIT has the storage that pixel accesses need. -/
theorem Ready.drawable {s : State} (hs : Ready s) : s.Drawable := hs.1.drawable hs.2

/-- With ALLOC = 1 a command that completes leads to a state of a run after INIT again. -/
theorem Ready.of_exec {i : Instr} {s t : State} (hs : Ready s) (h : exec i s = .next t) : Ready t :=
  ⟨exec_inv hs.1 h, (exec_keepsStorage hs.2 h).alloc.trans hs.2⟩

end Sys2Proof.Claims
end

section
/-! The gates: what a pixel write cannot reach (R51, R103, R134). -/

namespace Sys2Proof.Machine

open Sys2Proof.Claims

/-- PixRead reads the configuration, the sizes and FB, and nothing else (R101). -/
theorem pixRead_congr {s t : State} (hcfg : t.cfg = s.cfg) (hw : t.w = s.w) (hh : t.h = s.h)
    (hfb : t.fb = s.fb) (x y : Int) : pixRead x y t = pixRead x y s := by
  unfold pixRead InBounds addr State.pages memRead
  rw [hcfg, hw, hh, hfb]

@[simp] theorem pixRead_respond (x y v : Int) (s : State) :
    pixRead x y (s.respond v) = pixRead x y s := pixRead_congr rfl rfl rfl rfl x y

@[simp] theorem pixRead_raise (x y : Int) (e : Status) (s : State) :
    pixRead x y (s.raise e) = pixRead x y s := pixRead_congr rfl rfl rfl rfl x y

/-- R103: a pixel the clip excludes is merged not once. -/
theorem pixRead_plotMemory_of_not_inClip {s : State} (hs : s.Drawable) {x y : Int}
    (hb : InBounds s x y) (hc : ¬InClip s x y) (v : Bool) (m : Mode) (ps : List Pixel) :
    pixRead x y { s with fb := plotMemory s v m ps s.fb } = pixRead x y s := by
  have he := pixRead_eq hs x y
  rw [pixRead_plotMemory hb he, if_neg hc, he]
  rfl

theorem Effect.pixRead_of_not_inClip {i : Instr} {s u : State} {v : Int} (hs : s.Drawable)
    (hi : i.mnemonic ≠ .clear) (h : Effect i s u v) {x y : Int} (hb : InBounds s x y)
    (hc : ¬InClip s x y) : pixRead x y u = pixRead x y s := by
  obtain ⟨b, m, ps, rfl⟩ | ⟨rfl, -, -⟩ | ⟨_, _, _, _, -, rfl⟩ | ⟨_, -, rfl⟩ | ⟨_, -, rfl⟩ :=
    h.fb_only
  · exact pixRead_plotMemory_of_not_inClip hs hb hc b m ps
  · exact absurd rfl hi
  all_goals exact pixRead_congr rfl rfl rfl rfl x y

/-- Settles O30: every command but CLEAR reaches the pixels through the gates of `plotMemory`, or not at all. -/
theorem pixelsOutsideTheClipAreKept : Obligations.PixelsOutsideTheClipAreKept := by
  intro i s t ⟨hs, ha⟩ hi h x y hb hc
  cases exec_next h with
  | stateError _ ht => rw [ht, pixRead_raise]
  | allocError _ hn => exact absurd (ha.symm.trans hn) (by decide)
  | init _ hn => exact absurd (ha.symm.trans hn) (by decide)
  | effect _ _ he ht =>
    rw [ht, pixRead_respond, he.pixRead_of_not_inClip (hs.drawable ha) hi hb hc]

/-! ## Commands that have no clip gate -/

theorem Effect.setClip {i : Instr} {s u : State} {v : Int}
    (hi : i.mnemonic ∈ [.getpixel, .clear, .display]) (h : Effect i s u v) (cx cy cw ch : Word) :
    Effect i (s.setClip cx cy cw ch) (u.setClip cx cy cw ch) v := by
  cases h
  case clear hs => exact .clear (s := s.setClip cx cy cw ch) hs
  case getpixel hb => exact .getpixel ((pixRead_congr rfl rfl rfl rfl _ _).trans hb)
  case display hbs =>
    have hbytes := memReadAll_eq_next.1 hbs
    exact .display (memReadAll_eq_next.2 hbytes)
  all_goals exact absurd hi (by simp [Instr.mnemonic])

/-- Settles O31: with ALLOC = 0 the three answer ERR_STATE, and their effects do not read the clip. -/
theorem readsAndClearIgnoreTheClip : Obligations.ReadsAndClearIgnoreTheClip := by
  intro i s t cx cy cw ch hi h
  have hn : i.mnemonic ≠ .init := by rintro hn; simp [hn] at hi
  cases exec_next h with
  | stateError hc ht => exact ht ▸ exec_of_stateError (s := s.setClip cx cy cw ch) hc
  | allocError hi' => exact absurd (hi' ▸ rfl) hn
  | init hi' => exact absurd (hi' ▸ rfl) hn
  | effect _ ha he ht =>
    exact ht ▸ exec_of_effect (s := s.setClip cx cy cw ch) ha (he.setClip hi cx cy cw ch)

end Sys2Proof.Machine
end

section
/-! What no command reads: the bytes of FB from SIZE up, the port, and the record of past outputs (R27, R29, R80, R261). -/

namespace Sys2Proof.Machine

/-- `s` with another FB, another port and other past outputs. -/
def State.variant (fb : Memory) (es : List PortEvent) (rs : List Response) (fs : List (List Byte))
    (s : State) : State := { s with fb := fb, port := es, responses := rs, frames := fs }

/-- Two memories hold the same bytes below `n`. -/
def Memory.AgreeBelow (n : Nat) (m m' : Memory) : Prop := ∀ a < n, m.read a = m'.read a

/-! ## Stores and agreement -/

theorem Memory.read_mergeBit_congr {m m' : Memory} {b : Nat} (h : m.read b = m'.read b) (a k : Nat)
    (md : Mode) (v : Bool) : (m.mergeBit a k md v).read b = (m'.mergeBit a k md v).read b := by
  by_cases hab : a = b
  · subst hab
    unfold Memory.mergeBit
    rw [← h]
    split
    · rw [Memory.read_write, Memory.read_write]
      simp only [if_true]
    · exact h
  · rw [Memory.read_mergeBit_of_ne m hab, Memory.read_mergeBit_of_ne m' hab, h]

theorem plotMemory_read_congr {s : State} {v : Bool} {m : Mode} {a : Nat} (ps : List Pixel)
    {fb fb' : Memory} (h : fb.read a = fb'.read a) :
    (plotMemory s v m ps fb).read a = (plotMemory s v m ps fb').read a := by
  induction ps generalizing fb fb' with
  | nil => exact h
  | cons p ps ih =>
    refine ih ?_
    split
    · exact Memory.read_mergeBit_congr h _ _ _ _
    · exact h

theorem Memory.AgreeBelow.plotMemory {n : Nat} {fb fb' : Memory} (h : fb.AgreeBelow n fb')
    (s : State) (v : Bool) (m : Mode) (ps : List Pixel) :
    Memory.AgreeBelow n (Machine.plotMemory s v m ps fb) (Machine.plotMemory s v m ps fb') :=
  fun a ha => plotMemory_read_congr ps (h a ha)

theorem Memory.AgreeBelow.fill {n : Nat} {fb fb' : Memory} (h : fb.AgreeBelow n fb')
    (a k : Nat) (v : Byte) : (fb.fill a k v).AgreeBelow n (fb'.fill a k v) := by
  intro b hb
  rw [Memory.read_fill, Memory.read_fill, h b hb]

/-! ## The operations on a variant -/

section
variable {s : State} {fb : Memory} (hfb : fb.AgreeBelow s.size s.fb)
  (es : List PortEvent) (rs : List Response) (fs : List (List Byte))
include hfb

theorem memRead_variant {a : Nat} {b : Byte} (ha : a < s.size) (h : memRead a s = .next b) :
    memRead a (s.variant fb es rs fs) = .next b := by
  obtain ⟨hmem, hr⟩ := memRead_eq_next.1 h
  exact memRead_eq_next.2 ⟨hmem, (hfb a ha).trans hr⟩

theorem pixRead_variant {x y : Int} {b : Bool} (h : pixRead x y s = .next b) :
    pixRead x y (s.variant fb es rs fs) = .next b := by
  unfold pixRead at h ⊢
  by_cases hb : InBounds s x y
  · rw [if_pos hb] at h
    obtain ⟨c, hc, h⟩ := andThen_eq_next.1 h
    rw [if_pos (show InBounds (s.variant fb es rs fs) x y from hb)]
    exact andThen_eq_next.2 ⟨c, memRead_variant hfb es rs fs (addr_bounds hb).2 hc, h⟩
  · rw [if_neg hb] at h
    rw [if_neg (show ¬InBounds (s.variant fb es rs fs) x y from hb), h]

theorem pixWrite_variant {x y : Int} {v : Bool} {m : Mode} {r : Bool × State}
    (h : pixWrite x y v m s = .next r) :
    pixWrite x y v m (s.variant fb es rs fs) =
      .next (r.1, r.2.variant (plotMemory s v m [(x, y)] fb) es rs fs) := by
  have hgates : storeAddr (s.variant fb es rs fs) x y = storeAddr s x y := rfl
  unfold pixWrite at h ⊢
  rw [hgates, plotMemory, plotMemory]
  cases hst : storeAddr s x y with
  | none =>
    rw [hst] at h
    cases h
    rfl
  | some a =>
    rw [hst] at h
    obtain ⟨⟨hb, -⟩, rfl⟩ := storeAddr_eq_some.1 hst
    obtain ⟨b, hread, t, hwrite, h⟩ := by simpa only [andThen_eq_next] using h
    cases h
    have hread' := memRead_variant hfb es rs fs (addr_bounds hb).2 hread
    obtain ⟨hmem, hbyte⟩ := memRead_eq_next.1 hread'
    obtain ⟨-, rfl⟩ := memWrite_eq_next.1 hwrite
    have hwrite' := memWrite_eq_next (s := s.variant fb es rs fs)
      (v := setBit b (rowBit y) (merge m v (b.getLsbD (rowBit y)))).2 ⟨hmem, rfl⟩
    simp only [hread', hwrite', andThen_next]
    change fb.read _ = _ at hbyte
    simp only [Memory.mergeBit, hbyte]
    rfl

theorem memReadAll_variant {bs : List Byte}
    (h : memReadAll (List.range s.size) s = .next bs) :
    memReadAll (List.range s.size) (s.variant fb es rs fs) = .next bs := by
  obtain ⟨hmem, hbytes⟩ := memReadAll_eq_next.1 h
  refine memReadAll_eq_next.2 ⟨hmem, ?_⟩
  rw [← hbytes]
  exact List.map_congr_left fun a ha => hfb a (List.mem_range.1 ha)

end

/-- Which bits a list of pixels merges depends on the gates, not on FB. -/
theorem plotMemory_withFb (s : State) (n : Memory) (v : Bool) (m : Mode) (ps : List Pixel)
    (fb : Memory) : plotMemory { s with fb := n } v m ps fb = plotMemory s v m ps fb := by
  induction ps generalizing fb with
  | nil => rfl
  | cons p ps ih => exact ih _

theorem plot_variant {ps : List Pixel} {v : Bool} {m : Mode} {s t : State} {fb : Memory}
    (hfb : fb.AgreeBelow s.size s.fb) (es : List PortEvent) (rs : List Response)
    (fs : List (List Byte)) (h : plot ps v m s = .next t) :
    plot ps v m (s.variant fb es rs fs) =
      .next (t.variant (plotMemory s v m ps fb) es rs fs) := by
  induction ps generalizing s fb with
  | nil => cases h; rfl
  | cons p ps ih =>
    obtain ⟨r, hr, h⟩ := andThen_eq_next.1 h
    have hr2 : r.2 = { s with fb := plotMemory s v m [p] s.fb } := pixWrite_next hr
    have hagree : (plotMemory s v m [p] fb).AgreeBelow r.2.size r.2.fb := by
      rw [hr2]
      exact hfb.plotMemory s v m [p]
    rw [plot, pixWrite_variant hfb es rs fs hr, andThen_next, ih hagree h, hr2, plotMemory_withFb]
    rfl

/-! ## The effects on a variant -/

/-- What the effect of a command on a variant is: its own on FB, the frames it adds, and the same response. -/
def VariantEffect (i : Instr) (s u : State) (v : Int) (fb : Memory) (es : List PortEvent)
    (rs : List Response) (fs : List (List Byte)) : Prop :=
  ∃ fb' fr, Effect i (s.variant fb es rs fs) (u.variant fb' es rs (fs ++ fr)) v ∧
    u.frames = s.frames ++ fr ∧ fb'.AgreeBelow u.size u.fb ∧ (fb = s.fb → fb' = u.fb)

/-- A list of pixels is written alike on a variant. -/
theorem variantEffect_of_plot {i : Instr} {s u : State} {v : Int} {b : Bool} {m : Mode}
    {ps : List Pixel} {fb : Memory} {es : List PortEvent} {rs : List Response}
    {fs : List (List Byte)} (hu : u = { s with fb := plotMemory s b m ps s.fb })
    (hfb : fb.AgreeBelow s.size s.fb)
    (h : Effect i (s.variant fb es rs fs) (u.variant (plotMemory s b m ps fb) es rs fs) v) :
    VariantEffect i s u v fb es rs fs := by
  refine ⟨plotMemory s b m ps fb, [], by rw [List.append_nil]; exact h, ?_⟩
  subst hu
  exact ⟨(List.append_nil _).symm, hfb.plotMemory s b m ps, fun e => e ▸ rfl⟩

/-- A command that leaves FB and the frames does so on a variant. -/
theorem variantEffect_of_kept {i : Instr} {s u : State} {v : Int} {fb : Memory}
    {es : List PortEvent} {rs : List Response} {fs : List (List Byte)} (hu : u.fb = s.fb)
    (hframes : u.frames = s.frames) (hsize : u.size = s.size) (hfb : fb.AgreeBelow s.size s.fb)
    (h : Effect i (s.variant fb es rs fs) (u.variant fb es rs fs) v) :
    VariantEffect i s u v fb es rs fs :=
  ⟨fb, [], by rw [List.append_nil]; exact h, by rw [hframes, List.append_nil],
    by rw [hsize, hu]; exact hfb, fun e => e.trans hu.symm⟩

theorem Effect.variant {i : Instr} {s u : State} {v : Int} {fb : Memory} (h : Effect i s u v)
    (hfb : fb.AgreeBelow s.size s.fb) (es : List PortEvent) (rs : List Response)
    (fs : List (List Byte)) : VariantEffect i s u v fb es rs fs := by
  cases h with
  | clear h =>
    refine ⟨_, [], ?_, (List.append_nil _).symm, hfb.fill _ _ _, fun e => e ▸ rfl⟩
    rw [List.append_nil]
    exact .clear (s := s.variant fb es rs fs) h
  | getpixel h =>
    exact variantEffect_of_kept rfl rfl rfl hfb (.getpixel (pixRead_variant hfb es rs fs h))
  | setpixel h =>
    exact variantEffect_of_plot (ps := [(_, _)]) (pixWrite_next h) hfb
      (.setpixel (pixWrite_variant hfb es rs fs h))
  | setclip => exact variantEffect_of_kept rfl rfl rfl hfb .setclip
  | clrclip => exact variantEffect_of_kept rfl rfl rfl hfb (.clrclip (s := s.variant fb es rs fs))
  | hline h => exact variantEffect_of_plot (plot_next h) hfb (.hline (plot_variant hfb es rs fs h))
  | vline h => exact variantEffect_of_plot (plot_next h) hfb (.vline (plot_variant hfb es rs fs h))
  | rect h => exact variantEffect_of_plot (plot_next h) hfb (.rect (plot_variant hfb es rs fs h))
  | fillrect h =>
    exact variantEffect_of_plot (plot_next h) hfb (.fillrect (plot_variant hfb es rs fs h))
  | line h => exact variantEffect_of_plot (plot_next h) hfb (.line (plot_variant hfb es rs fs h))
  | circle h =>
    exact variantEffect_of_plot (plot_next h) hfb (.circle (plot_variant hfb es rs fs h))
  | fillcircle h =>
    exact variantEffect_of_plot (plot_next h) hfb (.fillcircle (plot_variant hfb es rs fs h))
  | setfont =>
    exact variantEffect_of_kept rfl rfl rfl hfb (.setfont (s := s.variant fb es rs fs))
  | glyph h =>
    obtain ⟨font, hf⟩ := activeFont_of_glyphDraw h
    rw [glyphDraw_eq hf] at h
    obtain ⟨t, ht, h⟩ := andThen_eq_next.1 h
    cases h
    refine variantEffect_of_plot (plot_next ht) hfb (.glyph ?_)
    rw [glyphDraw_eq (s := s.variant fb es rs fs) hf, plot_variant hfb es rs fs ht, andThen_next]
  | @string _ _ x y chs m v h =>
    cases chs with
    | nil =>
      cases h
      exact variantEffect_of_kept rfl rfl rfl hfb (.string rfl)
    | cons ch chs =>
      obtain ⟨q, hq, -⟩ := andThen_eq_next.1 h
      obtain ⟨font, hf⟩ := activeFont_of_glyphDraw hq
      rw [stringDraw_eq hf] at h
      obtain ⟨t, ht, h⟩ := andThen_eq_next.1 h
      cases h
      refine variantEffect_of_plot (plot_next ht) hfb (.string ?_)
      rw [stringDraw_eq (s := s.variant fb es rs fs) hf, plot_variant hfb es rs fs ht, andThen_next]
  | @display _ bs h =>
    exact ⟨fb, [bs], .display (s := s.variant fb es rs fs) (memReadAll_variant hfb es rs fs h), rfl,
      hfb, id⟩

/-- No effect takes an event off the port. -/
theorem Effect.port_eq {i : Instr} {s u : State} {v : Int} (h : Effect i s u v) :
    u.port = s.port := by
  obtain ⟨_, _, _, rfl⟩ | ⟨-, -, rfl⟩ | ⟨_, _, _, _, -, rfl⟩ | ⟨_, -, rfl⟩ | ⟨_, -, rfl⟩ :=
    h.fb_only <;> rfl

/-- INIT writes every byte that it takes into use (R108). -/
theorem agreeBelow_initState (w h : Word) (s : State) (fb : Memory) :
    (initState w h { s with fb := fb }).fb.AgreeBelow (initState w h s).size
      (initState w h s).fb := by
  intro a ha
  change a < storageSize w.toNat h.toNat at ha
  rw [read_initState, read_initState, if_pos ha, if_pos ha]

/-- Settles O57: an effect agrees on a variant (`Effect.variant`), and INIT writes the storage it takes into use. -/
theorem unspecifiedBytesAreUnobservable : Obligations.UnspecifiedBytesAreUnobservable := by
  intro i s t fb hfb h
  cases exec_next h with
  | stateError hc ht =>
    exact ⟨_, exec_of_stateError (s := { s with fb := fb }) hc, ht ▸ rfl,
      fun a ha hlt => ht ▸ hfb a (by rw [← ha, ht]; rfl) (by rw [ht] at hlt; exact hlt)⟩
  | @allocError w hh hi ha hf ht =>
    subst hi
    exact ⟨_, exec_init_of_not_fits (s := { s with fb := fb }) ha hf, ht ▸ rfl,
      fun _ ha' => by rw [ht] at ha'; cases ha.symm.trans ha'⟩
  | @init w hh hi ha hf ht =>
    subst hi ht
    exact ⟨_, exec_init_of_fits (s := { s with fb := fb }) ha hf, rfl,
      fun a _ hlt => agreeBelow_initState w hh s fb a hlt⟩
  | @effect u v _ ha he ht =>
    obtain ⟨fb', fr, he', hframes, hagree, -⟩ :=
      he.variant (hfb · ha) s.port s.responses s.frames
    refine ⟨_, exec_of_effect (s := s.variant fb s.port s.responses s.frames) ha he', ?_, ?_⟩
    · rw [ht, ← hframes, ← he.port_eq, ← he.responses_eq]
      rfl
    · subst ht
      exact fun a _ hlt => hagree a hlt

/-- Settles O58: `Effect.variant` with FB as it is; an error and INIT look at no output either. -/
theorem outputsAreNeverReadBack : Obligations.OutputsAreNeverReadBack := by
  intro i s t es rs fs h
  cases exec_next h with
  | stateError hc ht =>
    subst ht
    refine ⟨⟨.errState, 0⟩, [], rfl, (List.append_nil _).symm, ?_⟩
    rw [List.append_nil]
    exact exec_of_stateError (s := s.variant s.fb es rs fs) hc
  | allocError hi ha hf ht =>
    subst hi ht
    refine ⟨⟨.errAlloc, 0⟩, [], rfl, (List.append_nil _).symm, ?_⟩
    rw [List.append_nil]
    exact exec_init_of_not_fits (s := s.variant s.fb es rs fs) ha hf
  | init hi ha hf ht =>
    subst hi ht
    refine ⟨⟨.ok, 0⟩, [], rfl, (List.append_nil _).symm, ?_⟩
    rw [List.append_nil]
    exact exec_init_of_fits (s := s.variant s.fb es rs fs) ha hf
  | @effect u v _ ha he ht =>
    subst ht
    obtain ⟨fb', fr, he', hframes, -, hfb⟩ := he.variant (fun _ _ => rfl) es rs fs
    refine ⟨⟨.ok, BitVec.ofInt 32 v⟩, fr, ?_, hframes, ?_⟩
    · rw [State.respond_responses, he.responses_eq]
    · rw [hfb rfl] at he'
      exact exec_of_effect (s := s.variant s.fb es rs fs) ha he'

end Sys2Proof.Machine
end

section
/-! What a command writes beside FB, what it answers, and what a step makes of a packet (R12, R22 to R27, R80, R222, R231, R234). -/

namespace Sys2Proof.Machine

open Sys2Proof.Claims

/-! ## The writers of each register -/

theorem Effect.clip_eq {i : Instr} {s u : State} {v : Int} (h : Effect i s u v)
    (hi : i.mnemonic ∉ [.init, .setclip, .clrclip]) :
    u.clipX = s.clipX ∧ u.clipY = s.clipY ∧ u.clipW = s.clipW ∧ u.clipH = s.clipH := by
  obtain ⟨_, _, _, rfl⟩ | ⟨-, -, rfl⟩ | ⟨_, _, _, _, rfl | rfl, rfl⟩ | ⟨_, -, rfl⟩ | ⟨_, -, rfl⟩ :=
    h.fb_only
  case inr.inr.inl.inl | inr.inr.inl.inr => exact absurd hi (by simp [Instr.mnemonic])
  all_goals exact ⟨rfl, rfl, rfl, rfl⟩

theorem Effect.fontSel_eq {i : Instr} {s u : State} {v : Int} (h : Effect i s u v)
    (hi : i.mnemonic ≠ .setfont) : u.fontSel = s.fontSel := by
  obtain ⟨_, _, _, rfl⟩ | ⟨-, -, rfl⟩ | ⟨_, _, _, _, -, rfl⟩ | ⟨_, rfl, -⟩ | ⟨_, -, rfl⟩ :=
    h.fb_only
  case inr.inr.inr.inl => exact absurd rfl hi
  all_goals rfl

/-- R222: the effect of DISPLAY adds one frame, every other effect none. -/
theorem Effect.frames_eq {i : Instr} {s u : State} {v : Int} (h : Effect i s u v) :
    u.frames = s.frames ∨ i = .display ∧ ∃ bs, u.frames = s.frames ++ [bs] := by
  obtain ⟨_, _, _, rfl⟩ | ⟨-, -, rfl⟩ | ⟨_, _, _, _, -, rfl⟩ | ⟨_, -, rfl⟩ | ⟨bs, hi, rfl⟩ :=
    h.fb_only
  case inr.inr.inr.inr => exact .inr ⟨hi, bs, rfl⟩
  all_goals exact .inl rfl

theorem Effect.fb_eq {i : Instr} {s u : State} {v : Int} (h : Effect i s u v)
    (hi : i.mnemonic ∈ [.getpixel, .setclip, .clrclip, .setfont, .display]) : u.fb = s.fb := by
  cases h
  case getpixel | setclip | clrclip | setfont | display => rfl
  all_goals exact absurd hi (by simp [Instr.mnemonic])

theorem exec_frames {i : Instr} {s t : State} (h : exec i s = .next t) :
    t.frames = s.frames ∨ i = .display ∧ s.alloc = true ∧ ∃ bs, t.frames = s.frames ++ [bs] := by
  cases exec_next h with
  | stateError _ ht => exact .inl (ht ▸ rfl)
  | allocError _ _ _ ht => exact .inl (ht ▸ rfl)
  | init _ _ _ ht => exact .inl (ht ▸ rfl)
  | effect _ ha he ht =>
    subst ht
    exact he.frames_eq.imp_right fun ⟨hi, hbs⟩ => ⟨hi, ha, hbs⟩

/-- Settles O13: an error writes no register, INIT those it may, and an effect those of its command. -/
theorem eachRegisterHasOnlyItsWriters : Obligations.EachRegisterHasOnlyItsWriters := by
  intro i s t h
  have hframes (hi : i.mnemonic ≠ .display) : t.frames = s.frames :=
    (exec_frames h).resolve_right fun hd => hi (hd.1 ▸ rfl)
  cases exec_next h with
  | stateError _ ht | allocError _ _ _ ht =>
    subst ht
    exact ⟨rfl, rfl, fun _ => ⟨rfl, rfl, rfl⟩, fun _ => ⟨rfl, rfl, rfl, rfl⟩, fun _ => rfl, hframes,
      fun _ _ => rfl⟩
  | init hi _ _ ht =>
    subst hi ht
    exact ⟨rfl, rfl, fun hn => absurd rfl hn, fun hn => absurd (List.mem_cons_self ..) hn,
      fun _ => rfl, hframes, fun hn => absurd hn (by simp [Instr.mnemonic])⟩
  | effect _ _ he ht =>
    subst ht
    have hk := he.keepsStorage
    exact ⟨hk.cfg, he.port_eq, fun _ => ⟨hk.alloc, hk.w, hk.h⟩, he.clip_eq, he.fontSel_eq, hframes,
      fun hi a => congrArg (Memory.read · a) (he.fb_eq hi)⟩

/-- Settles O14: only the command DISPLAY adds a frame, and its packet is the one it encodes to. -/
theorem onlyDisplayEmitsBytes : Obligations.OnlyDisplayEmitsBytes := by
  intro s t h
  obtain ⟨-, rfl⟩ | ⟨es, -, rfl⟩ | ⟨p, es, e, -, -, rfl⟩ | ⟨p, es, i, hp, hd, hx⟩ := step_next h
  · exact .inl rfl
  · exact .inl rfl
  · exact .inl rfl
  · obtain hf | ⟨rfl, ha, bs, hbs⟩ := exec_frames hx
    · exact .inl hf
    · obtain ⟨-, hpacket⟩ := encodeOfDecodeIsThePacket p _ hd
      have hwords : encode .display = ⟨0x3000, []⟩ := by decide
      exact .inr ⟨es, bs, by rw [hp, ← hpacket, hwords], ha, hbs⟩

/-! ## The response -/

theorem commandStatus_eq_errState_iff {i : Instr} {s : State} :
    commandStatus i s = .errState ↔ (i.mnemonic = .init ↔ s.alloc = true) := by
  refine ⟨fun h => ?_, commandStatus_eq_errState⟩
  by_cases hi : i.mnemonic = .init
  · refine iff_of_true hi (by_contra fun ha => ?_)
    obtain ⟨w, hh, rfl⟩ := exists_init_of_mnemonic hi
    rw [commandStatus_init_of_not_alloc (Bool.eq_false_iff.2 ha)] at h
    split at h <;> cases h
  · refine iff_of_false hi fun ha => ?_
    rw [commandStatus_of_ne_init hi, if_pos ha] at h
    cases h

/-- Settles O15: the state check is INIT's or another command's, and no other check gives ERR_STATE. -/
theorem stateCheckOfEveryCommand : Obligations.StateCheckOfEveryCommand := by
  refine ⟨fun w h s ha => exec_init_of_alloc ha w h, fun i s hi ha => exec_of_not_alloc hi ha,
    fun i s t v h hv => ?_⟩
  obtain ⟨v', hv'⟩ := exec_response h
  obtain ⟨hstatus, -⟩ : commandStatus i s = .errState ∧ v' = v := by simpa using hv'.symm.trans hv
  have hcheck := commandStatus_eq_errState_iff.1 hstatus
  by_cases hi : i.mnemonic = .init
  · exact .inl ⟨hi, hcheck.1 hi⟩
  · exact .inr ⟨hi, Bool.eq_false_iff.2 (mt hcheck.2 hi)⟩

/-- R80: four commands return a value. -/
theorem Effect.value_eq_zero {i : Instr} {s u : State} {v : Int} (h : Effect i s u v)
    (hi : i.mnemonic ∉ [.getpixel, .setpixel, .glyph, .string]) : v = 0 := by
  cases h
  case getpixel | setpixel | glyph | string => exact absurd hi (by simp [Instr.mnemonic])
  all_goals rfl

/-- R80, R231: the response of a command, and that an error adds nothing but it. -/
theorem exec_answer {i : Instr} {s t : State} (h : exec i s = .next t) :
    (∃ e, e ≠ .ok ∧ t = s.raise e) ∨
    ∃ v : Int, t.responses = s.responses ++ [⟨.ok, BitVec.ofInt 32 v⟩] ∧
      (i.mnemonic ∉ [.getpixel, .setpixel, .glyph, .string] → v = 0) := by
  cases exec_next h with
  | stateError _ ht => exact .inl ⟨_, by decide, ht⟩
  | allocError _ _ _ ht => exact .inl ⟨_, by decide, ht⟩
  | init _ _ _ ht => exact .inr ⟨0, ht ▸ rfl, fun _ => rfl⟩
  | effect _ _ he ht =>
    exact .inr ⟨_, by rw [ht, State.respond_responses, he.responses_eq], he.value_eq_zero⟩

theorem step_packet {s t : State} {p : Packet} {es : List PortEvent} (hp : s.port = .packet p :: es)
    (h : step s = .next t) :
    t = (s.withPort es).raise .errIllegal ∨
      ∃ i, decode p = .ok i ∧ exec i (s.withPort es) = .next t := by
  cases hd : decode p with
  | error e => exact .inl (Host.Outcome.next.inj (h.symm.trans (step_of_decode_error hp hd)))
  | ok i => exact .inr ⟨i, rfl, (step_of_decode_ok hp hd).symm.trans h⟩

/-- R76: the opcodes of the four commands that return a value. -/
theorem opc_mem_valued_iff {p : Packet} {i : Instr} (hd : decode p = .ok i) :
    opc p ∈ [0x03, 0x04, 0x21, 0x22] ↔ i.mnemonic ∈ [.getpixel, .setpixel, .glyph, .string] := by
  rw [opc_of_decode_ok hd]
  cases i.mnemonic <;> decide

theorem Status.code_le_three (e : Status) : e.code.toNat ≤ 3 := by cases e <;> decide

/-- Settles O18: the response is an error with VALUE 0, or the one of the command that the packet decodes to. -/
theorem oneResponsePerPacket : Obligations.OneResponsePerPacket := by
  intro s t p es hp h
  have herror (e : Status) : t = (s.withPort es).raise e →
      ∃ r : Response, t.responses = s.responses ++ [r] ∧ r.status.code.toNat ≤ 3 ∧
        (r.status.code ≠ 0 → r.value = 0) ∧ (opc p ∉ [0x03, 0x04, 0x21, 0x22] → r.value = 0) :=
    fun ht => ⟨⟨e, 0⟩, ht ▸ rfl, e.code_le_three, fun _ => rfl, fun _ => rfl⟩
  obtain ht | ⟨i, hd, hx⟩ := step_packet hp h
  · exact herror _ ht
  · obtain ⟨e, -, ht⟩ | ⟨v, hr, hv⟩ := exec_answer hx
    · exact herror e ht
    · exact ⟨_, hr, Status.code_le_three _, fun hn => absurd rfl hn,
        fun ho => by rw [hv (mt (opc_mem_valued_iff hd).2 ho)]; rfl⟩

/-- Settles O19: an error is `State.raise` after the packet is taken off the port. -/
theorem errorsChangeNothing : Obligations.ErrorsChangeNothing := by
  intro s t p es r hp h hr hne
  have herror (e : Status) (ht : t = (s.withPort es).raise e) :
      t = answered r.status 0 { s with port := es } := by
    rw [ht] at hr
    obtain rfl : ⟨e, 0⟩ = r := by simpa using hr
    exact ht
  obtain ht | ⟨i, hd, hx⟩ := step_packet hp h
  · exact herror _ ht
  · obtain ⟨e, -, ht⟩ | ⟨v, hv, -⟩ := exec_answer hx
    · exact herror e ht
    · obtain rfl : r = ⟨.ok, BitVec.ofInt 32 v⟩ := by simpa using hr.symm.trans hv
      exact absurd rfl hne

/-! ## Steps -/

/-- Settles O5. -/
theorem stepRunsTheDecodedCommand : Obligations.StepRunsTheDecodedCommand :=
  fun _ _ _ _ hp hd => step_of_decode_ok hp hd

theorem decode_tablePacket {nbits w : Nat} {i : Instr} (h : decodeTableWord nbits w = some i) :
    decode (tablePacket nbits w) = .ok i := by
  unfold decodeTableWord at h
  cases hd : decode (tablePacket nbits w) with
  | error e => rw [hd] at h; cases h
  | ok j => rw [hd] at h; cases h; rfl

/-- Settles O6: taking the presented packet off the port gives the state before it was presented. -/
theorem tableWordRunsItsCommand : Obligations.TableWordRunsItsCommand :=
  fun s nbits w _ h => step_of_decode_ok (s := s.withFetchWord nbits w) rfl (decode_tablePacket h)

/-- Settles O7: the fields by computation; no command but INIT passes the state check. -/
theorem resetStateHasTheSpecValues : Obligations.ResetStateHasTheSpecValues := by
  rintro c s rfl
  exact ⟨rfl, rfl, rfl, rfl, rfl, rfl, rfl, rfl, fun _ => rfl, rfl, rfl, rfl,
    fun i hi => exec_of_not_alloc hi rfl⟩

/-- Settles O8, by the two cases of `step` without a packet. -/
theorem resetAndIdleSteps : Obligations.ResetAndIdleSteps := by
  refine ⟨fun s es hp => ?_, fun s hp => ?_⟩
  · rw [step, hp]
    rfl
  · rw [step, hp]

end Sys2Proof.Machine
end

section
/-! The framebuffer commands, the clip commands, SETFONT and DISPLAY, each by its effect (40_framebuffer.md section 3, 41_clip.md, 44_font.md section 3, 45_display.md). -/

namespace Sys2Proof.Machine

open Sys2Proof.Claims

/-! ## INIT and CLEAR -/

/-- Settles O21: `exec` of INIT by its two checks, and the bytes by `read_initState`. -/
theorem initAllocates : Obligations.InitAllocates := by
  intro w h s
  refine ⟨fun ha => exec_init_of_alloc ha w h,
    fun ha hr => exec_init_of_not_fits ha (sizeRefused_iff.1 hr), fun ha hr => ?_⟩
  have hfits := not_not.1 (mt sizeRefused_iff.2 hr)
  have hread := read_initState w h s
  have hsize : storageSize w.toNat h.toNat = 1 + w.toNat * ((h.toNat + 7) / 8) := rfl
  refine ⟨_, exec_init_of_fits ha hfits, rfl, hread 0, fun a h1 h2 => ?_, fun a h1 => ?_⟩
  · exact (hread a).trans (by rw [if_neg (by omega), if_pos (by omega)])
  · exact (hread a).trans (by rw [if_neg (by omega), if_neg (by omega)])

theorem read_clear (s : State) (a : Nat) :
    (s.fb.fill headerSize (s.size - headerSize) 0).read a =
      if 1 ≤ a ∧ a < s.size then some 0 else s.fb.read a := by
  rw [Memory.read_fill, Nat.add_sub_cancel' s.size_pos]
  rfl

/-- Settles O22: the fill covers the pixel bytes, and the byte of every pixel in bounds is one of these. -/
theorem clearZeroesThePixels : Obligations.ClearZeroesThePixels := by
  intro s
  refine ⟨fun ha => exec_of_not_alloc (by simp [Instr.mnemonic]) ha, fun hs => ?_⟩
  have hexec := exec_of_effect hs.2 (.clear hs.drawable.2)
  refine ⟨_, hexec, rfl, fun a h1 h2 => (read_clear s a).trans (if_pos ⟨h1, h2⟩),
    fun a ha => (read_clear s a).trans (if_neg (by omega)), fun x y => ?_⟩
  rw [pixRead_eq (hs.of_exec hexec).drawable]
  split
  next hb =>
    have hbyte : (s.fb.fill headerSize (s.size - headerSize) 0).read (addr s x y) = some 0 :=
      (read_clear s _).trans (if_pos (addr_bounds (s := s) hb))
    change Host.Outcome.next (((Memory.bitAt _ (addr s x y) (rowBit y))).getD false) = _
    simp only [State.respond_fb, Memory.bitAt, hbyte]
    simp
  next => rfl

/-! ## GETPIXEL and SETPIXEL -/

theorem toNat_toInt_of_nonneg {x : Word} (h : 0 ≤ x.toInt) : x.toInt.toNat = x.toNat := by
  have := x.isLt
  rw [BitVec.toInt_eq_toNat_cond] at h ⊢
  split at h <;> split <;> omega

theorem exec_getpixel {x y : Word} {s : State} {b : Bool} (ha : s.alloc = true)
    (h : pixRead x.toInt y.toInt s = .next b) :
    exec (.getpixel x y) s = .next (s.respond (bitValue b)) := exec_of_effect ha (.getpixel h)

/-- Settles O23: `pixRead`, with the coordinates' words read as numbers where they are in bounds. -/
theorem getpixelReadsTheStoredBit : Obligations.GetpixelReadsTheStoredBit := by
  intro x y s hs
  constructor
  · intro hb
    have ⟨⟨hx0, _⟩, hy0, _⟩ := hb
    have hx := toNat_toInt_of_nonneg hx0
    have hy := toNat_toInt_of_nonneg hy0
    have haddr : addr s x.toInt y.toInt = x.toNat * s.pages + y.toNat / 8 + 1 := by
      rw [addr, hx, hy]
      rfl
    have hbit : rowBit y.toInt = y.toNat % 8 := by rw [rowBit, hy]
    obtain ⟨b, hr⟩ := Option.isSome_iff_exists.1 (hs.drawable.1 _ (addr_bounds hb).2)
    refine ⟨b, haddr ▸ hr, exec_getpixel hs.2 ?_⟩
    rw [pixRead_eq hs.drawable, if_pos hb, Memory.bitAt, hr, hbit]
    rfl
  · intro hout
    refine exec_getpixel (b := false) hs.2 ?_
    rw [pixRead_eq hs.drawable, if_neg (by rintro ⟨⟨_, _⟩, _, _⟩; omega)]

/-- The bit of (x, y) before a pixel write, as SETPIXEL responds it (R102). -/
def oldBit (s : State) (x y : Int) : Bool :=
  if InBounds s x y ∧ InClip s x y then (s.fb.bitAt (addr s x y) (rowBit y)).getD false else false

theorem exec_setpixel {s : State} (hs : Ready s) (x y : Word) (v : Bool) (m : Mode) :
    exec (.setpixel x y v m) s =
      .next (({ s with fb := plotMemory s v m [(x.toInt, y.toInt)] s.fb } : State).respond
        (bitValue (oldBit s x.toInt y.toInt))) :=
  exec_of_effect hs.2 (.setpixel (pixWrite_eq_plotMemory hs.drawable _ _ v m))

theorem plotMemory_singleton {s : State} {x y : Int} {a : Nat} {b : Byte} {fb : Memory}
    (hst : storeAddr s x y = some a) (hb : fb.read a = some b) (v : Bool) (m : Mode) :
    plotMemory s v m [(x, y)] fb =
      fb.write a (setBit b (rowBit y) (merge m v (b.getLsbD (rowBit y)))) := by
  rw [plotMemory, plotMemory, hst]
  simp only [Memory.mergeBit, hb]

theorem plotMemory_singleton_of_blocked {s : State} {x y : Int} (hst : storeAddr s x y = none)
    (v : Bool) (m : Mode) (fb : Memory) : plotMemory s v m [(x, y)] fb = fb := by
  rw [plotMemory, plotMemory, hst]

/-- Settles O24: SETPIXEL merges one bit of the byte at `storeAddr`, and responds it. -/
theorem setpixelStoresTheMergedBit : Obligations.SetpixelStoresTheMergedBit := by
  intro x y v m s hs
  have hexec := exec_setpixel hs x y v m
  constructor
  · intro a hst
    obtain ⟨hg, haddr⟩ := storeAddr_eq_some.1 hst
    have ⟨hbounds, _⟩ := hg
    have ⟨_, hy0, _⟩ := hbounds
    have hbit : rowBit y.toInt = y.toNat % 8 := by rw [rowBit, toNat_toInt_of_nonneg hy0]
    have hlt : a < s.size := haddr ▸ (addr_bounds hbounds).2
    obtain ⟨b, hb⟩ := Option.isSome_iff_exists.1 (hs.drawable.1 a hlt)
    have hold : oldBit s x.toInt y.toInt = b.getLsbD (y.toNat % 8) := by
      rw [oldBit, if_pos hg, haddr, Memory.bitAt, hb, hbit]
      rfl
    rw [hold, plotMemory_singleton hst hb] at hexec
    refine ⟨_, b, _, hexec, hb, (Memory.read_write ..).trans (if_pos rfl), fun k hk => ?_,
      fun a' ha' => (Memory.read_write ..).trans (if_neg (Ne.symm ha')), rfl⟩
    rw [getLsbD_setBit _ _ _ _ (rowBit_lt _), hbit, merge_eq_newBit]
    split
    next h => rw [h]
    next => rfl
  · intro hst
    rw [plotMemory_singleton_of_blocked hst, oldBit, if_neg (storeAddr_eq_none.1 hst)] at hexec
    exact hexec

/-- R104: under XOR with V = 1 an even number of writes of every bit leaves FB as it is. -/
theorem plotMemory_xor_of_even {s : State} {ps : List Pixel} {fb : Memory} (hw : fb.wf)
    (h : ∀ a k, hits s a k ps % 2 = 0) : plotMemory s true .xor ps fb = fb := by
  refine Memory.ext_bitAt (plotMemory_wf ps hw) hw fun a k _ => ?_
  have hid : (merge .xor true)^[hits s a k ps] = id := by
    funext e
    rw [merge_iterate]
    simp [h a k]
  rw [plotMemory_bitAt, hid, Option.map_id, id]

/-- Settles O25: both writes together are a list that holds its pixel twice. -/
theorem xorTwiceRestoresTheBuffer : Obligations.XorTwiceRestoresTheBuffer := by
  intro x y s hs
  have ht := exec_setpixel hs x y true .xor
  refine ⟨_, _, ht, exec_setpixel (hs.of_exec ht) x y true .xor, ?_⟩
  refine Eq.trans ?_ (plotMemory_xor_of_even (s := s)
    (ps := [(x.toInt, y.toInt), (x.toInt, y.toInt)]) hs.1.canonical fun a k => ?_)
  · rfl
  · simp only [hits, List.countP_cons, List.countP_nil]
    split <;> rfl

/-- A response that carries a bit (R80). -/
theorem ofInt_bitValue (b : Bool) : BitVec.ofInt 32 (bitValue b) = if b then 1 else 0 := by
  cases b <;> decide

theorem pixRead_of_inBounds {s : State} (hs : s.Drawable) {x y : Int} (hb : InBounds s x y) :
    pixRead x y s = .next ((s.fb.bitAt (addr s x y) (rowBit y)).getD false) := by
  rw [pixRead_eq hs, if_pos hb]

theorem pixRead_eq_oldBit {s : State} (hs : s.Drawable) {x y : Int} (hb : InBounds s x y)
    (hc : InClip s x y) : pixRead x y s = .next (oldBit s x y) := by
  rw [pixRead_of_inBounds hs hb, oldBit, if_pos ⟨hb, hc⟩]

/-- R103, R109: after SETPIXEL its pixel reads merged, if the clip admits it. -/
theorem pixRead_after_setpixel {s u : State} {x y : Word} {v : Bool} {m : Mode} {e : Bool}
    (hs : Ready s) (h : exec (.setpixel x y v m) s = .next u) (hb : InBounds s x.toInt y.toInt)
    (he : pixRead x.toInt y.toInt s = .next e) :
    pixRead x.toInt y.toInt u = .next (if InClip s x.toInt y.toInt then newBit m v e else e) := by
  cases (exec_setpixel hs x y v m).symm.trans h
  rw [pixRead_respond, pixRead_plotMemory hb he, List.count_singleton_self, merge_eq_newBit]
  split <;> rfl

/-- Settles O26: the old bit is what `pixRead` reads before, and `pixRead_after_setpixel` says what it reads after. -/
theorem getpixelReadsWhatSetpixelStored : Obligations.GetpixelReadsWhatSetpixelStored := by
  intro x y v m s hs hb hc
  have hexec := exec_setpixel hs x y v m
  have hread := pixRead_after_setpixel hs hexec hb (pixRead_eq_oldBit hs.drawable hb hc)
  rw [if_pos hc] at hread
  refine ⟨_, _, oldBit s x.toInt y.toInt, hexec, exec_getpixel hs.2 hread, ?_, ?_⟩
  · rw [State.respond_responses, ofInt_bitValue]
  · rw [State.respond_responses _ (State.respond _ _), ofInt_bitValue]

/-! ## The clip commands -/

/-- Settles O27, by the effects of the two commands. -/
theorem clipCommandsWriteTheClipRegisters : Obligations.ClipCommandsWriteTheClipRegisters :=
  ⟨fun _ _ _ _ _ ha => exec_of_effect ha .setclip, fun _ ha => exec_of_effect ha .clrclip⟩

/-- Settles O28: the clip of the second command is the one that the first one has set. -/
theorem clipGateIsClosedAtBothEnds : Obligations.ClipGateIsClosedAtBothEnds := by
  intro x y w h px py v m s hs hb
  have hset : exec (.setclip x y w h) s = .next ((s.setClip x y w h).respond 0) :=
    exec_of_effect hs.2 .setclip
  have ht := hs.of_exec hset
  have he := pixRead_of_inBounds hs.drawable hb
  have hpix := exec_setpixel ht px py v m
  exact ⟨_, _, _, hset, hpix, he, pixRead_after_setpixel ht hpix hb he⟩

theorem toInt_eq_toNat_of_le {w : Word} (h : w.toNat ≤ 32767) : w.toInt = w.toNat := by
  rw [BitVec.toInt_eq_toNat_cond, if_pos (by omega)]

theorem toInt_sub_one {w : Word} (h : 1 ≤ w.toNat ∧ w.toNat ≤ 32767) :
    (w - 1).toInt = w.toNat - 1 := by
  have hsub : (w - 1).toNat = w.toNat - 1 := by bv_omega
  rw [toInt_eq_toNat_of_le (by omega), hsub]
  omega

/-- R131 with the origin (0, 0). -/
theorem inClip_origin_iff {s : State} {cw ch : Word} {x y : Int} :
    InClip (s.setClip 0 0 cw ch) x y ↔ (0 ≤ x ∧ x ≤ cw.toInt) ∧ (0 ≤ y ∧ y ≤ ch.toInt) := by
  have h0 : (0 : Word).toInt = 0 := by decide
  simp only [InClip, State.setClip_clipX, State.setClip_clipY, State.setClip_clipW,
    State.setClip_clipH, sext16, h0, Int.zero_add]

/-- Settles O29: W and H are at most 32767, so their signed and unsigned readings agree (R24). -/
theorem defaultClipAdmitsThePixelsInBounds : Obligations.DefaultClipAdmitsThePixelsInBounds := by
  intro s t hs h
  cases (exec_of_effect hs.2 .clrclip).symm.trans h
  obtain ⟨hw, hh⟩ := hs.1.extent hs.2
  have hdefault (x y : Int) : InClip ((s.setClip 0 0 s.w s.h).respond 0) x y ↔
      (0 ≤ x ∧ x ≤ s.w.toNat) ∧ (0 ≤ y ∧ y ≤ s.h.toNat) := by
    refine (inClip_origin_iff (s := s) (cw := s.w) (ch := s.h)).trans ?_
    rw [toInt_eq_toNat_of_le hw.2, toInt_eq_toNat_of_le hh.2]
  refine ⟨fun x y hb => ⟨(hdefault x y).2 ?_, ?_⟩, hdefault⟩
  · obtain ⟨⟨hx, hx'⟩, hy, hy'⟩ := hb
    exact ⟨⟨hx, hx'.le⟩, hy, hy'.le⟩
  · rw [inClip_origin_iff, toInt_sub_one hw, toInt_sub_one hh]
    obtain ⟨⟨hx, hx'⟩, hy, hy'⟩ := hb
    exact ⟨⟨hx, Int.le_sub_one_of_lt hx'⟩, hy, Int.le_sub_one_of_lt hy'⟩

/-! ## SETFONT and DISPLAY -/

/-- Settles O50, by the effect of SETFONT. -/
theorem setfontSelectsOrUnsets : Obligations.SetfontSelectsOrUnsets := by
  intro idx s ha
  have hexec := exec_of_effect ha (.setfont (s := s) (idx := idx))
  constructor
  · intro (hlt : zext16 idx < s.cfg.nFonts)
    rwa [if_pos hlt] at hexec
  · intro (hle : s.cfg.nFonts ≤ zext16 idx)
    rwa [if_neg (Nat.not_lt.2 hle)] at hexec

theorem getElem?_storage {s : State} (hs : s.Drawable) {a : Nat} (ha : a < s.size) :
    s.storage[a]? = s.fb.read a := by
  obtain ⟨b, hb⟩ := Option.isSome_iff_exists.1 (hs.1 a ha)
  simp [State.storage, ha, hb]

theorem exec_display {s : State} (hs : Ready s) :
    exec .display s = .next ((s.emitFrame s.storage).respond 0) :=
  exec_of_effect hs.2 (.display (memReadAll_eq_storage hs.drawable))

/-- Settles O56: the frame is `State.storage`, which DISPLAY itself does not change. -/
theorem displayEmitsTheBuffer : Obligations.DisplayEmitsTheBuffer := by
  intro s
  refine ⟨fun ha => exec_of_not_alloc (by simp [Instr.mnemonic]) ha, fun hs => ?_⟩
  have hexec := exec_display hs
  exact ⟨s.storage, by simp [State.storage], fun a ha => getElem?_storage hs.drawable ha,
    _, hexec, rfl, _, exec_display (hs.of_exec hexec), rfl⟩

end Sys2Proof.Machine
end

section
/-! Drawing commands: a command whose effect is one list of pixels writes each as often as it stands in the list, and nothing else (R109, R147); the lists of HLINE, VLINE, RECT, FILLRECT and CIRCLE. -/

namespace Sys2Proof.Machine

open Sys2Proof.Claims

/-! ## From a list of pixels to what is written -/

section
variable {s : State} {n : Int → Int → Nat} {ps : List Pixel} (hn : ∀ x y, ps.count (x, y) = n x y)
include hn

theorem written_of_mem {p : Pixel} (hp : p ∈ ps) : 0 < n p.1 p.2 := by
  rw [← hn]
  exact List.count_pos_iff.2 hp

/-- R103: the bits of a byte that belong to none of the pixels written are as before. -/
theorem plotMemory_getLsbD_of_not_written {a k : Nat} {b c : Byte} (v : Bool) (m : Mode)
    (hb : s.fb.read a = some b) (hc : (plotMemory s v m ps s.fb).read a = some c)
    (hk : ∀ x y, 0 < n x y → storeAddr s x y = some a → rowBit y ≠ k) :
    c.getLsbD k = b.getLsbD k := by
  have hhits : hits s a k ps = 0 := by
    refine List.countP_eq_zero.2 fun p hp hpk => ?_
    obtain ⟨hst, hbit⟩ := of_decide_eq_true hpk
    exact hk _ _ (written_of_mem hn hp) hst hbit
  have hbitAt := plotMemory_bitAt (s := s) (v := v) (m := m) ps s.fb a k
  rw [hhits, Memory.bitAt, Memory.bitAt, hb, hc] at hbitAt
  exact Option.some.inj hbitAt

/-- R109, R147: what writing the pixels of a list leaves, by how often each stands in it. -/
theorem pixelsWritten_plotMemory (v : Bool) (m : Mode) (val : Int) :
    PixelsWritten n v m s (({ s with fb := plotMemory s v m ps s.fb } : State).respond val) := by
  refine ⟨fun x y e hb he => ?_, fun a ha => ?_, fun a b hb => ?_⟩
  · rw [pixRead_respond, pixRead_plotMemory hb he, hn, merge_eq_newBit]
    split <;> rfl
  · exact plotMemory_read_of_not_stored ps s.fb a fun p hp => ha _ _ (written_of_mem hn hp)
  · have hsome : ((plotMemory s v m ps s.fb).read a).isSome = true := by
      rw [plotMemory_isSome, hb]
      rfl
    obtain ⟨c, hc⟩ := Option.isSome_iff_exists.1 hsome
    exact ⟨c, hc, fun k _ hk => plotMemory_getLsbD_of_not_written hn v m hb hc hk⟩

/-- A command whose effect is a list of pixels draws it. -/
theorem draws_of_effect {i : Instr} {val : Int} {v : Bool} {m : Mode} (hs : Ready s)
    (he : Effect i s { s with fb := plotMemory s v m ps s.fb } val) : Draws i val n v m s :=
  ⟨_, exec_of_effect hs.2 he, rfl, pixelsWritten_plotMemory hn v m val⟩

end

/-! ## HLINE, VLINE, RECT, FILLRECT and LINE -/

/-- Settles O32: the row holds each of its pixels once. -/
theorem hlineWritesItsRow : Obligations.HlineWritesItsRow :=
  fun _ _ _ v m _ hs =>
    draws_of_effect (fun _ _ => count_hlinePixels ..) hs (.hline (plot_eq _ v m hs.drawable))

/-- Settles O33: the column holds each of its pixels once. -/
theorem vlineWritesItsColumn : Obligations.VlineWritesItsColumn :=
  fun _ _ _ v m _ hs =>
    draws_of_effect (fun _ _ => count_vlinePixels ..) hs (.vline (plot_eq _ v m hs.drawable))

/-- R142: a pixel stands in RECT's list once per edge that holds it. -/
theorem count_rectPixels (x y w h px py : Int) :
    (rectPixels x y w h).count (px, py) =
      (if py = y ∧ x ≤ px ∧ px ≤ x + (w - 1) then 1 else 0) +
      (if py = y + h ∧ x ≤ px ∧ px ≤ x + w then 1 else 0) +
      (if px = x ∧ y ≤ py ∧ py ≤ y + (h - 1) then 1 else 0) +
      (if px = x + w ∧ y ≤ py ∧ py ≤ y + h then 1 else 0) := by
  rw [rectPixels, List.count_append, List.count_append, List.count_append, count_hlinePixels,
    count_hlinePixels, count_vlinePixels, count_vlinePixels]

/-- Settles O34, by `count_rectPixels`. -/
theorem rectWritesItsFourEdges : Obligations.RectWritesItsFourEdges :=
  fun _ _ _ _ v m _ hs =>
    draws_of_effect (fun _ _ => count_rectPixels ..) hs (.rect (plot_eq _ v m hs.drawable))

theorem mem_hlinePixels {x y w px py : Int} :
    (px, py) ∈ hlinePixels x y w ↔ py = y ∧ x ≤ px ∧ px ≤ x + w := by
  rw [← List.count_pos_iff, count_hlinePixels]
  split <;> simp [*]

theorem nodup_hlinePixels (x y w : Int) : (hlinePixels x y w).Nodup := by
  refine List.nodup_iff_count_le_one.2 fun p => ?_
  rw [count_hlinePixels]
  split <;> simp

/-- The scanlines of FILLRECT have no pixel in common. -/
theorem nodup_fillrectPixels (x y w h : Int) : (fillrectPixels x y w h).Nodup := by
  refine List.nodup_flatMap.2 ⟨fun j _ => nodup_hlinePixels x (y + j) w,
    (nodup_ascending 0 h).imp fun {i j} hij => ?_⟩
  rintro ⟨px, py⟩ hi hj
  obtain ⟨hpi, -⟩ := mem_hlinePixels.1 hi
  obtain ⟨hpj, -⟩ := mem_hlinePixels.1 hj
  omega

theorem mem_fillrectPixels {x y w h px py : Int} :
    (px, py) ∈ fillrectPixels x y w h ↔ (x ≤ px ∧ px ≤ x + w) ∧ (y ≤ py ∧ py ≤ y + h) := by
  simp only [fillrectPixels, List.mem_flatMap, mem_ascending, mem_hlinePixels]
  exact ⟨fun ⟨j, h1, h2⟩ => by omega, fun h => ⟨py - y, by omega, by omega⟩⟩

/-- Settles O35: the area holds each of its pixels once. -/
theorem fillrectWritesItsArea : Obligations.FillrectWritesItsArea := by
  intro x y w h v m s hs
  refine draws_of_effect (fun px py => ?_) hs (.fillrect (plot_eq _ v m hs.drawable))
  rw [count_of_nodup (nodup_fillrectPixels ..)]
  exact if_congr mem_fillrectPixels rfl rfl

/-- Settles O36: LINE draws the list of its pixels. -/
theorem lineWritesItsPixels : Obligations.LineWritesItsPixels :=
  fun _ _ _ _ v m _ hs =>
    draws_of_effect (fun _ _ => rfl) hs (.line (plot_eq _ v m hs.drawable))

/-! ## RECT under XOR -/

theorem pixRead_of_not_inBounds {s : State} {x y : Int} (hb : ¬InBounds s x y) :
    pixRead x y s = .next false := by
  rw [pixRead, if_neg hb]

/-- R104: a pixel that XOR with V = 1 writes twice reads as before; out of bounds it reads 0 before and after. -/
theorem pixRead_of_written_twice {n : Int → Int → Nat} {s t : State} {x y : Int} {e : Bool}
    (hw : t.w = s.w) (hh : t.h = s.h) (hp : PixelsWritten n true .xor s t) (hn : n x y = 2)
    (he : pixRead x y s = .next e) : pixRead x y t = .next e := by
  by_cases hb : InBounds s x y
  · rw [hp.1 x y e hb he, hn]
    cases e <;> split <;> rfl
  · have hbt : ¬InBounds t x y := by unfold InBounds; rwa [hw, hh]
    rw [pixRead_of_not_inBounds hbt, ← pixRead_of_not_inBounds hb, he]

/-- R104: a pixel that XOR with V = 1 writes once is complemented where both gates pass. -/
theorem pixRead_of_written_once {n : Int → Int → Nat} {s t : State} {x y : Int} {e : Bool}
    (hp : PixelsWritten n true .xor s t) (hn : n x y = 1) (hb : InBounds s x y)
    (hc : InClip s x y) (he : pixRead x y s = .next e) : pixRead x y t = .next (!e) := by
  rw [hp.1 x y e hb he, if_pos hc, hn]
  cases e <;> rfl

/-- Settles O37: two corners stand on two edges, the other two on one. -/
theorem xorRectangleKeepsTwoCorners : Obligations.XorRectangleKeepsTwoCorners := by
  intro x y w h s t hs hw hh hexec
  have hdraws : Draws (.rect x y w h true .xor) 0
      (fun px py => (rectPixels x.toInt y.toInt w.toInt h.toInt).count (px, py)) true .xor s :=
    draws_of_effect (fun _ _ => rfl) hs (.rect (plot_eq _ true .xor hs.drawable))
  obtain ⟨t', hexec', ht, hp⟩ := hdraws
  cases hexec.symm.trans hexec'
  have htw : t.w = s.w := by rw [ht]; rfl
  have hth : t.h = s.h := by rw [ht]; rfl
  refine ⟨fun e he => pixRead_of_written_twice htw hth hp ?_ he,
    fun e he => pixRead_of_written_twice htw hth hp ?_ he, fun px py e hcorner hb hc he => ?_⟩
  · rw [count_rectPixels]
    split_ifs <;> omega
  · rw [count_rectPixels]
    split_ifs <;> omega
  · refine pixRead_of_written_once hp ?_ hb hc he
    rw [count_rectPixels]
    split_ifs <;> omega

/-! ## CIRCLE -/

theorem count_plot8 (cx cy px py : Int) (p : Int × Int) :
    (plot8 cx cy p.1 p.2).count (px, py) = imageHits cx cy p px py := by
  simp only [plot8, List.count_cons, List.count_nil, imageHits, beq_iff_eq, Prod.mk.injEq,
    eq_comm (b := px), eq_comm (b := py)]
  omega

/-- R170, R172: a pixel stands in CIRCLE's list once per image of a pass that it is. -/
theorem count_circlePixels (cx cy r px py : Int) :
    (circlePixels cx cy r).count (px, py) =
      ((circlePasses r).map fun p => imageHits cx cy p px py).sum := by
  rw [circlePixels, List.count_flatMap]
  exact congrArg List.sum (List.map_congr_left fun p _ => count_plot8 cx cy px py p)

/-- Settles O44, by `count_circlePixels`. -/
theorem circleWritesItsPasses : Obligations.CircleWritesItsPasses :=
  fun _ _ _ v m _ hs =>
    draws_of_effect (fun _ _ => count_circlePixels ..) hs (.circle (plot_eq _ v m hs.drawable))

/-- R171: the eight images of a pass are symmetric in both axes and in the diagonal. -/
theorem imageHits_symmetric (cx cy a b : Int) (p : Int × Int) :
    imageHits cx cy p (cx + a) (cy + b) = imageHits cx cy p (cx - a) (cy + b) ∧
    imageHits cx cy p (cx + a) (cy + b) = imageHits cx cy p (cx + a) (cy - b) ∧
    imageHits cx cy p (cx + a) (cy + b) = imageHits cx cy p (cx + b) (cy + a) := by
  obtain ⟨x, y⟩ := p
  have hplus (c u w : Int) : (c + u = c + w) = (u = w) := by simp
  have hminus (c u w : Int) : (c + u = c - w) = (u = -w) := propext (by omega)
  have hminus' (c u w : Int) : (c - u = c + w) = (u = -w) := propext (by omega)
  have hminus'' (c u w : Int) : (c - u = c - w) = (u = w) := propext (by omega)
  simp only [imageHits, hplus, hminus, hminus', hminus'', and_comm (a := b = _)]
  refine ⟨?_, ?_, ?_⟩ <;> omega

/-- Settles O47: each pass is symmetric, and the passes do not depend on the pixel. -/
theorem circleHasEightfoldSymmetry : Obligations.CircleHasEightfoldSymmetry := by
  intro cx cy r a b
  simp only [count_circlePixels]
  refine ⟨?_, ?_, ?_⟩ <;> refine congrArg List.sum (List.map_congr_left fun p _ => ?_) <;>
    obtain ⟨hx, hy, hdiagonal⟩ := imageHits_symmetric cx cy a b p
  · exact hx
  · exact hy
  · exact hdiagonal

theorem hits_append (s : State) (a k : Nat) (ps qs : List Pixel) :
    hits s a k (ps ++ qs) = hits s a k ps + hits s a k qs := List.countP_append

/-- R172: a pass on an axis or at the centre writes each of its images twice. -/
theorem hits_plot8_axis (s : State) (a k : Nat) (cx cy y : Int) :
    hits s a k (plot8 cx cy 0 y) % 2 = 0 := by
  simp only [hits, plot8, List.countP_cons, List.countP_nil, Int.add_zero, Int.sub_zero]
  omega

/-- Settles O48: every pass of radius 0 and 1 has x = 0, and so writes every bit an even number of times. -/
theorem smallXorCircleChangesNothing : Obligations.SmallXorCircleChangesNothing := by
  intro cx cy r s hs hr
  have hpasses : ∃ y y' : Int, circlePasses (sext16 r) = [(0, y), (0, y')] := by
    rcases hr with h | h
    · exact ⟨0, -1, by rw [sext16, h]; decide⟩
    · exact ⟨1, 0, by rw [sext16, h]; decide⟩
  obtain ⟨y, y', hp⟩ := hpasses
  have heven (a k : Nat) :
      hits s a k (circlePixels (sext16 cx) (sext16 cy) (sext16 r)) % 2 = 0 := by
    rw [circlePixels, hp, List.flatMap_cons, List.flatMap_cons, List.flatMap_nil, List.append_nil,
      hits_append]
    rw [Nat.add_mod, hits_plot8_axis, hits_plot8_axis]
  have hplot := plot_eq (circlePixels (sext16 cx) (sext16 cy) (sext16 r)) true .xor hs.drawable
  rw [plotMemory_xor_of_even hs.1.canonical heven] at hplot
  exact exec_of_effect hs.2 (.circle hplot)

/-! ## Nothing to draw -/

theorem ascending_of_lt {a b : Int} (h : b < a) : ascending a b = [] := by
  rw [ascending, Int.toNat_of_nonpos (by omega)]
  rfl

theorem hlinePixels_of_neg (x y : Int) {w : Int} (hw : w < 0) : hlinePixels x y w = [] := by
  rw [hlinePixels, ascending_of_lt hw, List.map_nil]

theorem vlinePixels_of_neg (x y : Int) {h : Int} (hh : h < 0) : vlinePixels x y h = [] := by
  rw [vlinePixels, ascending_of_lt hh, List.map_nil]

theorem fillrectPixels_of_neg (x y : Int) {w h : Int} (hwh : w < 0 ∨ h < 0) :
    fillrectPixels x y w h = [] := by
  refine List.flatMap_eq_nil_iff.2 fun j hj => ?_
  obtain ⟨h0, h1⟩ := mem_ascending.1 hj
  exact hlinePixels_of_neg x (y + j) (by omega)

theorem rectPixels_of_neg (x y : Int) {w h : Int} (hw : w < 0) (hh : h < 0) :
    rectPixels x y w h = [] := by
  rw [rectPixels, hlinePixels_of_neg _ _ (by omega), hlinePixels_of_neg _ _ hw,
    vlinePixels_of_neg _ _ (by omega), vlinePixels_of_neg _ _ hh]
  rfl

theorem circlePasses_of_neg {r : Int} (hr : r < 0) : circlePasses r = [] :=
  circleLoop_of_lt hr _ _

/-- Settles O38: each of the lists is empty, and drawing none needs no byte of FB. -/
theorem negativeExtentsWriteNothing : Obligations.NegativeExtentsWriteNothing := by
  intro x y w h v m s ha
  have hnone {ps : List Pixel} (hps : ps = []) : plot ps v m s = .next s := hps ▸ rfl
  refine ⟨fun hw => exec_of_effect ha (.hline (hnone (hlinePixels_of_neg _ _ hw))),
    fun hh => exec_of_effect ha (.vline (hnone (vlinePixels_of_neg _ _ hh))),
    fun hwh => exec_of_effect ha (.fillrect (hnone (fillrectPixels_of_neg _ _ hwh))),
    fun hw hh => exec_of_effect ha (.rect (hnone (rectPixels_of_neg _ _ hw hh))),
    fun hw => exec_of_effect ha (.circle (hnone ?_)),
    fun hw => exec_of_effect ha (.fillcircle (hnone ?_))⟩
  · rw [circlePixels, sext16, sext16, sext16, circlePasses_of_neg hw, List.flatMap_nil]
  · rw [fillcirclePixels, sext16, sext16, sext16, circlePasses_of_neg hw, List.flatMap_nil]

end Sys2Proof.Machine
end

section
/-! LINE: its loop follows a closed form in which the two axes have the same part (R144 to R146), and the chords of FILLCIRCLE are such lines (R173, R174). -/

namespace Sys2Proof.Machine

open Sys2Proof.Claims

/-! ## How far an axis has advanced -/

/-- How far an axis of extent `k` has advanced after `i` of `n` steps: `k * i / n` to the nearest number, halves upwards. -/
def axisStep (n k i : Nat) : Nat := (2 * i * k + n) / (2 * n)

theorem axisStep_of_mul_eq_zero {n k i : Nat} (h : i * k = 0) : axisStep n k i = 0 := by
  rw [axisStep, Nat.mul_assoc, h, Nat.mul_zero, Nat.zero_add]
  rcases Nat.eq_zero_or_pos n with rfl | hn
  · rfl
  · exact Nat.div_eq_of_lt (by omega)

@[simp] theorem axisStep_zero (n k : Nat) : axisStep n k 0 = 0 :=
  axisStep_of_mul_eq_zero (Nat.zero_mul k)

@[simp] theorem axisStep_extent_zero (n i : Nat) : axisStep n 0 i = 0 :=
  axisStep_of_mul_eq_zero (Nat.mul_zero i)

theorem axisStep_eq_iff {n k i p : Nat} (hn : 0 < n) :
    axisStep n k i = p ↔ 2 * n * p ≤ 2 * i * k + n ∧ 2 * i * k + n < 2 * n * (p + 1) := by
  have h2 : 0 < 2 * n := by omega
  rw [axisStep, Nat.div_eq_iff h2, Nat.mul_comm p, Nat.mul_succ]
  omega

theorem axisStep_bounds {n : Nat} (hn : 0 < n) (k i : Nat) :
    2 * n * axisStep n k i ≤ 2 * i * k + n ∧ 2 * i * k + n < 2 * n * (axisStep n k i + 1) :=
  (axisStep_eq_iff hn).1 rfl

/-- R146 (b): the major axis advances by one in every step. -/
theorem axisStep_self {n i : Nat} (hi : i ≤ n) : axisStep n n i = i := by
  rcases Nat.eq_zero_or_pos n with rfl | hn
  · obtain rfl := Nat.le_zero.1 hi
    rfl
  · exact (axisStep_eq_iff hn).2 ⟨by linarith, by linarith⟩

/-- After all its steps an axis has advanced by its extent. -/
theorem axisStep_last {n k : Nat} (hk : k ≤ n) : axisStep n k n = k := by
  rcases Nat.eq_zero_or_pos n with rfl | hn
  · obtain rfl := Nat.le_zero.1 hk
    rfl
  · exact (axisStep_eq_iff hn).2 ⟨by linarith, by linarith⟩

theorem axisStep_le {n k i : Nat} (hk : k ≤ n) (hi : i ≤ n) : axisStep n k i ≤ k := by
  have hmono : 2 * i * k + n ≤ 2 * n * k + n :=
    Nat.add_le_add_right (Nat.mul_le_mul_right k (Nat.mul_le_mul_left 2 hi)) n
  calc axisStep n k i ≤ axisStep n k n := Nat.div_le_div_right hmono
    _ = k := axisStep_last hk

/-- One step advances an axis by one or not at all. -/
theorem axisStep_succ {n k : Nat} (hn : 0 < n) (hk : k ≤ n) (i : Nat) :
    axisStep n k (i + 1) =
      if 2 * n * (axisStep n k i + 1) ≤ 2 * (i + 1) * k + n then axisStep n k i + 1
      else axisStep n k i := by
  obtain ⟨hlo, hhi⟩ := axisStep_bounds hn k i
  rw [axisStep_eq_iff hn]
  split
  next h => exact ⟨h, by linarith⟩
  next h => exact ⟨by linarith, by linarith⟩

/-! ## The loop -/

/-- R145: the test that the loop makes for an axis of extent `a` advances it as `axisStep` does; `b` is the extent of the other axis. -/
theorem advances_iff {a b : Nat} (hn : 0 < max a b) {i : Nat} (hi : i ≤ max a b) :
    b * (axisStep (max a b) a i + 1) * 2 ≤ a * (axisStep (max a b) b i + 1) * 2 + b ↔
      2 * max a b * (axisStep (max a b) a i + 1) ≤ 2 * (i + 1) * a + max a b := by
  rcases le_total b a with hba | hab
  · rw [max_eq_left hba] at hn hi ⊢
    obtain ⟨-, hhi⟩ := axisStep_bounds hn b i
    rw [axisStep_self hi]
    exact iff_of_true (by linarith) (by linarith)
  · rw [max_eq_right hab] at hn hi ⊢
    rw [axisStep_self hi]
    constructor <;> intro h <;> linarith

/-- The decision variable of R145 after i steps. -/
def lineErr (a b i : Nat) : Int :=
  a * (axisStep (max a b) b i + 1) - b * (axisStep (max a b) a i + 1)

/-- The pixel after i steps from (x0, y0) in the directions `sx` and `sy`, with the extents `a` and `b`. -/
def linePath (x0 y0 sx sy : Int) (a b i : Nat) : Pixel :=
  (x0 + sx * axisStep (max a b) a i, y0 + sy * axisStep (max a b) b i)

theorem axisStep_succ_of_x_test {a b i : Nat} (hi : i < max a b) :
    axisStep (max a b) a (i + 1) =
      if -(b : Int) ≤ 2 * lineErr a b i then axisStep (max a b) a i + 1
      else axisStep (max a b) a i := by
  have hn : 0 < max a b := Nat.zero_lt_of_lt hi
  rw [axisStep_succ hn (le_max_left a b)]
  refine if_congr ((advances_iff hn hi.le).symm.trans ?_) rfl rfl
  rw [lineErr, ← Int.ofNat_le]
  push_cast
  constructor <;> intro h <;> linarith

theorem axisStep_succ_of_y_test {a b i : Nat} (hi : i < max a b) :
    axisStep (max a b) b (i + 1) =
      if 2 * lineErr a b i ≤ (a : Int) then axisStep (max a b) b i + 1
      else axisStep (max a b) b i := by
  have hflip : 2 * lineErr a b i ≤ (a : Int) ↔ -(a : Int) ≤ 2 * lineErr b a i := by
    rw [lineErr, lineErr, max_comm b a]
    constructor <;> intro h <;> linarith
  have hstep := axisStep_succ_of_x_test (a := b) (b := a) (i := i) (by rwa [max_comm])
  rw [max_comm b a] at hstep
  rw [hstep]
  exact (if_congr hflip rfl rfl).symm

/-- R146 (b): before its last step the loop is not at its end point. -/
theorem not_at_end {a b i : Nat} (hi : i < max a b) :
    ¬(axisStep (max a b) a i = a ∧ axisStep (max a b) b i = b) := by
  rintro ⟨ha, hb⟩
  rcases le_total b a with hba | hab
  · rw [max_eq_left hba] at hi ha
    rw [axisStep_self hi.le] at ha
    omega
  · rw [max_eq_right hab] at hi hb
    rw [axisStep_self hi.le] at hb
    omega

theorem lineErr_succ {a b i : Nat} (hi : i < max a b) :
    lineErr a b (i + 1) = lineErr a b i +
      (if -(b : Int) ≤ 2 * lineErr a b i then -(b : Int) else 0) +
      (if 2 * lineErr a b i ≤ (a : Int) then (a : Int) else 0) := by
  have hx := axisStep_succ_of_x_test hi
  have hy := axisStep_succ_of_y_test hi
  split_ifs at hx hy ⊢ <;> rw [lineErr, lineErr, hx, hy] <;> push_cast <;> ring

/-- One step of the loop of R145 goes from the i-th pixel to the next. -/
theorem lineLoop_step {a b i : Nat} (hi : i < max a b) {x0 y0 sx sy : Int} (hsx : sx ≠ 0)
    (hsy : sy ≠ 0) (k : Nat) :
    lineLoop (x0 + sx * a) (y0 + sy * b) a (-b) sx sy (k + 1) (linePath x0 y0 sx sy a b i).1
        (linePath x0 y0 sx sy a b i).2 (lineErr a b i) =
      linePath x0 y0 sx sy a b i ::
        lineLoop (x0 + sx * a) (y0 + sy * b) a (-b) sx sy k (linePath x0 y0 sx sy a b (i + 1)).1
          (linePath x0 y0 sx sy a b (i + 1)).2 (lineErr a b (i + 1)) := by
  have hne : ¬((linePath x0 y0 sx sy a b i).1 = x0 + sx * a ∧
      (linePath x0 y0 sx sy a b i).2 = y0 + sy * b) := by
    have := not_at_end hi
    simpa [linePath, hsx, hsy] using this
  rw [lineLoop_succ, if_neg hne]
  congr 2
  · rw [linePath, linePath, axisStep_succ_of_x_test hi]
    split <;> push_cast <;> ring
  · rw [linePath, linePath, axisStep_succ_of_y_test hi]
    split <;> push_cast <;> ring
  · exact (lineErr_succ hi).symm

theorem lineLoop_eq {a b : Nat} {x0 y0 sx sy : Int} (hsx : sx ≠ 0) (hsy : sy ≠ 0) (k i : Nat)
    (hik : i + k = max a b) :
    lineLoop (x0 + sx * a) (y0 + sy * b) a (-b) sx sy (k + 1) (linePath x0 y0 sx sy a b i).1
        (linePath x0 y0 sx sy a b i).2 (lineErr a b i) =
      (List.range' i (k + 1)).map (linePath x0 y0 sx sy a b) := by
  induction k generalizing i with
  | zero =>
    obtain rfl : i = max a b := hik
    rw [lineLoop_succ, if_pos]
    · rfl
    · simp [linePath, axisStep_last]
  | succ k ih =>
    rw [lineLoop_step (by omega) hsx hsy, ih (i + 1) (by omega)]
    rfl

/-! ## The closed form -/

/-- One coordinate of LINE after i of n steps from `c0` to `c1`. -/
def lineCoord (c0 c1 : Int) (n i : Nat) : Int :=
  c0 + (c1 - c0).sign * axisStep n (c1 - c0).natAbs i

/-- The i-th pixel of LINE x0, y0, x1, y1. -/
def linePixel (x0 y0 x1 y1 : Int) (i : Nat) : Pixel :=
  (lineCoord x0 x1 (lineSteps x0 y0 x1 y1) i, lineCoord y0 y1 (lineSteps x0 y0 x1 y1) i)

/-- The direction that R145 gives an axis of extent 0 is never used. -/
theorem direction_mul_axisStep (c0 c1 : Int) (n i : Nat) :
    c0 + (if c0 < c1 then 1 else -1 : Int) * axisStep n (c1 - c0).natAbs i =
      lineCoord c0 c1 n i := by
  rw [lineCoord]
  rcases lt_trichotomy c0 c1 with h | rfl | h
  · rw [if_pos h, Int.sign_eq_one_of_pos (by omega)]
  · simp
  · rw [if_neg (by omega), Int.sign_eq_neg_one_of_neg (by omega)]

theorem linePath_eq_linePixel (x0 y0 x1 y1 : Int) :
    linePath x0 y0 (if x0 < x1 then 1 else -1) (if y0 < y1 then 1 else -1) (x1 - x0).natAbs
      (y1 - y0).natAbs = linePixel x0 y0 x1 y1 := by
  funext i
  rw [linePixel, linePath, direction_mul_axisStep, direction_mul_axisStep, lineSteps]

theorem direction_mul_natAbs (c0 c1 : Int) :
    c0 + (if c0 < c1 then 1 else -1) * (c1 - c0).natAbs = c1 := by
  split <;> omega

/-- R145, R146: the pixels of LINE in closed form. -/
theorem linePixels_eq (x0 y0 x1 y1 : Int) :
    linePixels x0 y0 x1 y1 =
      (List.range (lineSteps x0 y0 x1 y1 + 1)).map (linePixel x0 y0 x1 y1) := by
  have hloop := lineLoop_eq (a := (x1 - x0).natAbs) (b := (y1 - y0).natAbs) (x0 := x0) (y0 := y0)
    (sx := if x0 < x1 then 1 else -1) (sy := if y0 < y1 then 1 else -1)
    (by split <;> decide) (by split <;> decide) (lineSteps x0 y0 x1 y1) 0 (Nat.zero_add _)
  rw [direction_mul_natAbs, direction_mul_natAbs, ← List.range_eq_range',
    linePath_eq_linePixel] at hloop
  rw [← hloop]
  simp [linePixels, linePixel, lineCoord, lineErr, Int.sub_eq_add_neg]

theorem mem_linePixels_iff {x0 y0 x1 y1 : Int} {p : Pixel} :
    p ∈ linePixels x0 y0 x1 y1 ↔ ∃ i ≤ lineSteps x0 y0 x1 y1, linePixel x0 y0 x1 y1 i = p := by
  simp only [linePixels_eq, List.mem_map, List.mem_range, Nat.lt_succ_iff]

/-- Settles O41: the closed form of the statement has the major axis advance by i, as `axisStep` does. -/
theorem lineFollowsItsClosedForm : Obligations.LineFollowsItsClosedForm := by
  intro x0 y0 x1 y1
  rw [linePixels_eq]
  refine List.map_congr_left fun i hi => ?_
  have hi' := Nat.lt_succ_iff.1 (List.mem_range.1 hi)
  rw [lineSteps] at hi'
  rw [← linePath_eq_linePixel]
  simp only [linePath, linePoint]
  by_cases h : (y1 - y0).natAbs ≤ (x1 - x0).natAbs
  · rw [max_eq_left h] at hi' ⊢
    rw [axisStep_self hi', if_pos h]
    rfl
  · rw [max_eq_right (by omega)] at hi' ⊢
    rw [axisStep_self hi', if_neg h]
    rfl

/-! ## One coordinate -/

theorem lineCoord_last {c0 c1 : Int} {n : Nat} (hn : (c1 - c0).natAbs ≤ n) :
    lineCoord c0 c1 n n = c1 := by
  rw [lineCoord, axisStep_last hn, Int.sign_mul_natAbs]
  omega

theorem lineCoord_of_major {c0 c1 : Int} {n i : Nat} (hn : (c1 - c0).natAbs = n) (hi : i ≤ n) :
    lineCoord c0 c1 n i = c0 + (c1 - c0).sign * i := by
  rw [lineCoord, hn, axisStep_self hi]

/-- An axis has extent 0, or one of two directions. -/
theorem natAbs_eq_zero_or_sign (d : Int) :
    d.natAbs = 0 ∨ 0 < d ∧ d.sign = 1 ∨ d < 0 ∧ d.sign = -1 := by
  rcases lt_trichotomy d 0 with h | rfl | h
  · exact .inr (.inr ⟨h, Int.sign_eq_neg_one_of_neg h⟩)
  · exact .inl rfl
  · exact .inr (.inl ⟨h, Int.sign_eq_one_of_pos h⟩)

theorem lineCoord_bounds {c0 c1 : Int} {n i : Nat} (hn : (c1 - c0).natAbs ≤ n) (hi : i ≤ n) :
    min c0 c1 ≤ lineCoord c0 c1 n i ∧ lineCoord c0 c1 n i ≤ max c0 c1 := by
  have hle := axisStep_le hn hi
  rw [lineCoord]
  rcases natAbs_eq_zero_or_sign (c1 - c0) with h | ⟨hlt, h⟩ | ⟨hlt, h⟩
  · rw [h] at hle ⊢
    simp
  all_goals rw [h]; omega

/-- The major coordinate is another one after every step. -/
theorem lineCoord_inj_of_major {c0 c1 : Int} {n i j : Nat} (hn : (c1 - c0).natAbs = n)
    (hi : i ≤ n) (hj : j ≤ n) (h : lineCoord c0 c1 n i = lineCoord c0 c1 n j) : i = j := by
  rw [lineCoord_of_major hn hi, lineCoord_of_major hn hj] at h
  rcases natAbs_eq_zero_or_sign (c1 - c0) with hz | ⟨-, hs⟩ | ⟨-, hs⟩
  · omega
  all_goals rw [hs] at h; omega

theorem lineCoord_move {c0 c1 : Int} {n i : Nat} (hn : (c1 - c0).natAbs ≤ n) (hi : i < n) :
    (lineCoord c0 c1 n (i + 1) - lineCoord c0 c1 n i).natAbs ≤ 1 := by
  have hstep := axisStep_succ (Nat.zero_lt_of_lt hi) hn i
  rw [lineCoord, lineCoord]
  rcases natAbs_eq_zero_or_sign (c1 - c0) with h | ⟨-, h⟩ | ⟨-, h⟩
  · simp [h]
  all_goals rw [h]; split at hstep <;> omega

theorem lineCoord_move_of_major {c0 c1 : Int} {n i : Nat} (hn : (c1 - c0).natAbs = n) (hi : i < n) :
    (lineCoord c0 c1 n (i + 1) - lineCoord c0 c1 n i).natAbs = 1 := by
  rw [lineCoord_of_major hn hi, lineCoord_of_major hn hi.le]
  rcases natAbs_eq_zero_or_sign (c1 - c0) with h | ⟨-, h⟩ | ⟨-, h⟩
  · omega
  all_goals rw [h]; omega

theorem lineCoord_mirror (c0 c1 c : Int) (n i : Nat) :
    lineCoord (c - c0) (c - c1) n i = c - lineCoord c0 c1 n i := by
  have hd : c - c1 - (c - c0) = -(c1 - c0) := by ring
  rw [lineCoord, lineCoord, hd, Int.sign_neg, Int.natAbs_neg]
  ring

/-! ## The pixels (R146) -/

theorem natAbs_x_le_lineSteps (x0 y0 x1 y1 : Int) : (x1 - x0).natAbs ≤ lineSteps x0 y0 x1 y1 :=
  le_max_left ..

theorem natAbs_y_le_lineSteps (x0 y0 x1 y1 : Int) : (y1 - y0).natAbs ≤ lineSteps x0 y0 x1 y1 :=
  le_max_right ..

theorem linePixel_last (x0 y0 x1 y1 : Int) :
    linePixel x0 y0 x1 y1 (lineSteps x0 y0 x1 y1) = (x1, y1) := by
  rw [linePixel, lineCoord_last (natAbs_x_le_lineSteps ..),
    lineCoord_last (natAbs_y_le_lineSteps ..)]

/-- No two steps of LINE are at one pixel, since the major coordinates differ. -/
theorem linePixel_inj {x0 y0 x1 y1 : Int} {i j : Nat} (hi : i ≤ lineSteps x0 y0 x1 y1)
    (hj : j ≤ lineSteps x0 y0 x1 y1) (h : linePixel x0 y0 x1 y1 i = linePixel x0 y0 x1 y1 j) :
    i = j := by
  obtain ⟨hx, hy⟩ := Prod.mk.inj h
  rcases le_total (y1 - y0).natAbs (x1 - x0).natAbs with hle | hle
  · exact lineCoord_inj_of_major (max_eq_left hle).symm hi hj hx
  · exact lineCoord_inj_of_major (max_eq_right hle).symm hi hj hy

theorem nodup_linePixels (x0 y0 x1 y1 : Int) : (linePixels x0 y0 x1 y1).Nodup := by
  rw [linePixels_eq]
  refine List.nodup_range.map_on fun i hi j hj h => ?_
  exact linePixel_inj (Nat.lt_succ_iff.1 (List.mem_range.1 hi))
    (Nat.lt_succ_iff.1 (List.mem_range.1 hj)) h

theorem linePixel_move {x0 y0 x1 y1 : Int} {i : Nat} (hi : i < lineSteps x0 y0 x1 y1) :
    ((linePixel x0 y0 x1 y1 (i + 1)).1 - (linePixel x0 y0 x1 y1 i).1).natAbs ≤ 1 ∧
    ((linePixel x0 y0 x1 y1 (i + 1)).2 - (linePixel x0 y0 x1 y1 i).2).natAbs ≤ 1 ∧
    if (y1 - y0).natAbs ≤ (x1 - x0).natAbs then
      ((linePixel x0 y0 x1 y1 (i + 1)).1 - (linePixel x0 y0 x1 y1 i).1).natAbs = 1
    else ((linePixel x0 y0 x1 y1 (i + 1)).2 - (linePixel x0 y0 x1 y1 i).2).natAbs = 1 := by
  refine ⟨lineCoord_move (natAbs_x_le_lineSteps ..) hi,
    lineCoord_move (natAbs_y_le_lineSteps ..) hi, ?_⟩
  split
  next h => exact lineCoord_move_of_major (max_eq_left h).symm hi
  next h => exact lineCoord_move_of_major (max_eq_right (by omega)).symm hi

/-- Settles O40, on the closed form `linePixels_eq`. -/
theorem lineVisitsDistinctPixelsFromEndToEnd :
    Obligations.LineVisitsDistinctPixelsFromEndToEnd := by
  intro x0 y0 x1 y1
  refine ⟨?_, nodup_linePixels .., ?_, ?_, fun p hp => ?_, ?_⟩
  · rw [linePixels_eq, List.length_map, List.length_range, lineSteps]
  · rw [linePixels_eq, List.range_succ_eq_map]
    simp [linePixel, lineCoord]
  · rw [linePixels_eq, List.range_succ, List.map_append, List.map_singleton, List.getLast?_concat,
      linePixel_last]
  · obtain ⟨i, hi, rfl⟩ := mem_linePixels_iff.1 hp
    exact ⟨lineCoord_bounds (natAbs_x_le_lineSteps ..) hi,
      lineCoord_bounds (natAbs_y_le_lineSteps ..) hi⟩
  · rw [linePixels_eq, List.isChain_map]
    exact (List.isChain_range_succ _ _).2 fun i hi => linePixel_move hi

/-! ## The symmetries, and lines along an axis (R144) -/

/-- Mirroring all x operands mirrors the pixels. -/
theorem linePixels_mirror_x (x0 y0 x1 y1 c : Int) :
    linePixels (c - x0) y0 (c - x1) y1 =
      (linePixels x0 y0 x1 y1).map fun p => (c - p.1, p.2) := by
  have hsteps : lineSteps (c - x0) y0 (c - x1) y1 = lineSteps x0 y0 x1 y1 := by
    rw [lineSteps, lineSteps, show c - x1 - (c - x0) = -(x1 - x0) by ring, Int.natAbs_neg]
  rw [linePixels_eq, linePixels_eq, List.map_map, hsteps]
  refine List.map_congr_left fun i _ => ?_
  simp only [linePixel, Function.comp_apply, hsteps, lineCoord_mirror]

/-- Exchanging x and y exchanges them in the pixels. -/
theorem linePixels_swap (x0 y0 x1 y1 : Int) :
    linePixels y0 x0 y1 x1 = (linePixels x0 y0 x1 y1).map fun p => (p.2, p.1) := by
  have hsteps : lineSteps y0 x0 y1 x1 = lineSteps x0 y0 x1 y1 := max_comm ..
  rw [linePixels_eq, linePixels_eq, List.map_map, hsteps]
  refine List.map_congr_left fun i _ => ?_
  simp only [linePixel, Function.comp_apply, hsteps]

/-- A mirror in y is a mirror in x between two exchanges. -/
theorem linePixels_mirror_y (x0 y0 x1 y1 c : Int) :
    linePixels x0 (c - y0) x1 (c - y1) =
      (linePixels x0 y0 x1 y1).map fun p => (p.1, c - p.2) := by
  rw [linePixels_swap (c - y0) x0, linePixels_mirror_x, linePixels_swap x0 y0, List.map_map,
    List.map_map]
  rfl

theorem end_mem_linePixels (x0 y0 x1 y1 : Int) : (x1, y1) ∈ linePixels x0 y0 x1 y1 :=
  mem_linePixels_iff.2 ⟨_, le_rfl, linePixel_last ..⟩

theorem lineSteps_horizontal (x0 x1 y : Int) : lineSteps x0 y x1 y = (x1 - x0).natAbs := by
  simp [lineSteps]

/-- The i-th pixel of a horizontal line. -/
theorem linePixel_horizontal {x0 x1 y : Int} {i : Nat} (hi : i ≤ (x1 - x0).natAbs) :
    linePixel x0 y x1 y i = (x0 + (x1 - x0).sign * i, y) := by
  rw [linePixel, lineSteps_horizontal, lineCoord_of_major rfl hi]
  simp [lineCoord]

theorem mem_linePixels_horizontal {x0 x1 y px py : Int} :
    (px, py) ∈ linePixels x0 y x1 y ↔
      py = y ∧ min x0 x1 ≤ px ∧ px ≤ min x0 x1 + (x1 - x0).natAbs := by
  rw [mem_linePixels_iff, lineSteps_horizontal]
  constructor
  · rintro ⟨i, hi, h⟩
    have hbounds := lineCoord_bounds le_rfl hi
    rw [lineCoord_of_major rfl hi] at hbounds
    cases (linePixel_horizontal hi).symm.trans h
    omega
  · rintro ⟨rfl, hlo, hhi⟩
    have hle : (px - x0).natAbs ≤ (x1 - x0).natAbs := by omega
    refine ⟨(px - x0).natAbs, hle, (linePixel_horizontal hle).trans (Prod.ext ?_ rfl)⟩
    dsimp only
    rcases natAbs_eq_zero_or_sign (x1 - x0) with h | ⟨hlt, h⟩ | ⟨hlt, h⟩
    · have hpx : px = x0 := by omega
      simp [hpx]
    all_goals rw [h]; omega

/-- A horizontal line has the pixels of the HLINE between its ends. -/
theorem linePixels_perm_hlinePixels (x0 x1 y : Int) :
    (linePixels x0 y x1 y).Perm (hlinePixels (min x0 x1) y (x1 - x0).natAbs) := by
  refine (List.perm_ext_iff_of_nodup (nodup_linePixels ..) (nodup_hlinePixels ..)).2 fun p => ?_
  rw [← Prod.mk.eta (p := p), mem_linePixels_horizontal, mem_hlinePixels]

theorem vlinePixels_eq_map_hlinePixels (x y h : Int) :
    vlinePixels x y h = (hlinePixels y x h).map fun p => (p.2, p.1) := by
  rw [vlinePixels, hlinePixels, List.map_map]
  rfl

/-- Settles O42: the octants by the mirror and the exchange, a vertical line by exchanging a horizontal one. -/
theorem lineMeetsTheSourceProperties : Obligations.LineMeetsTheSourceProperties := by
  refine ⟨fun x0 y0 x1 y1 c => ⟨linePixels_mirror_x .., linePixels_mirror_y ..,
    linePixels_swap .., end_mem_linePixels ..⟩, linePixels_perm_hlinePixels, fun x y0 y1 => ?_,
    linePixels_perm_hlinePixels 0 10 0⟩
  rw [linePixels_swap, vlinePixels_eq_map_hlinePixels]
  exact (linePixels_perm_hlinePixels y0 y1 x).map _

/-! ## Chords -/

/-- R173: the chord of half-width |x| in a row, each pixel once. -/
theorem count_chord (cx row x px py : Int) :
    (linePixels (cx - x) row (cx + x) row).count (px, py) =
      if py = row ∧ (px - cx).natAbs ≤ x.natAbs then 1 else 0 := by
  rw [(linePixels_perm_hlinePixels ..).count_eq, count_hlinePixels]
  exact if_congr (by omega) rfl rfl

theorem count_chord4 (cx cy px py : Int) (p : Int × Int) :
    (chord4 cx cy p.1 p.2).count (px, py) = chordHits cx cy p px py := by
  simp only [chord4, List.count_append, count_chord, chordHits]

/-- R173, R174: a pixel stands in FILLCIRCLE's list once per chord of a pass that holds it. -/
theorem count_fillcirclePixels (cx cy r px py : Int) :
    (fillcirclePixels cx cy r).count (px, py) =
      ((circlePasses r).map fun p => chordHits cx cy p px py).sum := by
  rw [fillcirclePixels, List.count_flatMap]
  exact congrArg List.sum (List.map_congr_left fun p _ => count_chord4 cx cy px py p)

/-- Settles O45, by `count_fillcirclePixels`. -/
theorem fillcircleWritesItsChords : Obligations.FillcircleWritesItsChords :=
  fun _ _ _ v m _ hs =>
    draws_of_effect (fun _ _ => count_fillcirclePixels ..) hs
      (.fillcircle (plot_eq _ v m hs.drawable))

/-- R174: each image of a pass is an end of one of its chords. -/
theorem mem_chord4_of_mem_plot8 {cx cy x y px py : Int} (h : (px, py) ∈ plot8 cx cy x y) :
    (px, py) ∈ chord4 cx cy x y := by
  rw [← List.count_pos_iff, count_chord4 cx cy px py (x, y), chordHits]
  obtain ⟨hx, hy⟩ | ⟨hx, hy⟩ := mem_plot8.1 h <;> dsimp only <;> split_ifs <;> omega

/-- Settles O49: both commands run the same passes. -/
theorem fillcircleContainsCircle : Obligations.FillcircleContainsCircle := by
  intro cx cy r p hp
  obtain ⟨q, hq, hpq⟩ := List.mem_flatMap.1 hp
  exact List.mem_flatMap.2 ⟨q, hq, mem_chord4_of_mem_plot8 hpq⟩

end Sys2Proof.Machine
end

section
/-! The passes of the circle loop: the rows it visits as a sequence of their own, on which the fuel has no influence (R172, R174, R175). -/

namespace Sys2Proof.Machine

/-! ## The decision -/

/-- The decision value of R172 in closed form, before the second pass at (x, y). -/
def circleDecision (r x y : Int) : Int := (x + 1) ^ 2 + y ^ 2 - y - r ^ 2

/-- The row after the midpoint decision at (x, y). -/
def nextRow (r x y : Int) : Int := if (x + 1) ^ 2 + y ^ 2 - y < r ^ 2 then y else y - 1

theorem circleDecision_start (r : Int) : 1 - r = circleDecision r 0 r := by
  rw [circleDecision]
  ring

/-- R172: both updates of the decision value keep its closed form. -/
theorem circleLoop_decision (r : Int) (n : Nat) (x y : Int) :
    circleLoop (n + 1) x y (circleDecision r x y) =
      if x ≤ y then
        (x, y) :: (x, nextRow r x y) ::
          circleLoop n (x + 1) (nextRow r x y) (circleDecision r (x + 1) (nextRow r x y))
      else [] := by
  have hneg : circleDecision r x y < 0 ↔ (x + 1) ^ 2 + y ^ 2 - y < r ^ 2 := by
    rw [circleDecision]
    exact ⟨fun h => by linarith, fun h => by linarith⟩
  have hkeep : circleDecision r x y + 2 * x + 3 = circleDecision r (x + 1) y := by
    simp only [circleDecision]
    ring
  have hdown : circleDecision r x y + 2 * (x - y) + 5 = circleDecision r (x + 1) (y - 1) := by
    simp only [circleDecision]
    ring
  rw [circleLoop_succ, hkeep, hdown]
  simp only [hneg, nextRow]
  split_ifs <;> rfl

/-! ## The rows -/

/-- The row at which iteration j begins. -/
def circleRow (r : Int) : Nat → Int
  | 0 => r
  | j + 1 => nextRow r j (circleRow r j)

theorem nextRow_bounds (r x y : Int) : y - 1 ≤ nextRow r x y ∧ nextRow r x y ≤ y := by
  rw [nextRow]
  split <;> omega

theorem circleRow_le (r : Int) (j : Nat) : circleRow r j ≤ r := by
  induction j with
  | zero => exact le_rfl
  | succ j ih => exact (nextRow_bounds r j _).2.trans ih

/-- The two passes of iteration j. -/
def circleIteration (r : Int) (j : Nat) : List (Int × Int) :=
  [((j : Int), circleRow r j), ((j : Int), circleRow r (j + 1))]

/-- R174: the loop runs until its fuel is used up or the row has fallen below the column. -/
theorem circleLoop_eq_iterations (r : Int) (n i : Nat) :
    ∃ k ≤ n, circleLoop n i (circleRow r i) (circleDecision r i (circleRow r i)) =
        (List.range' i k).flatMap (circleIteration r) ∧
      (∀ j, i ≤ j → j < i + k → (j : Int) ≤ circleRow r j) ∧
      (k = n ∨ circleRow r (i + k) < (i + k : Nat)) := by
  induction n generalizing i with
  | zero => exact ⟨0, le_rfl, rfl, fun j h1 h2 => by omega, .inl rfl⟩
  | succ n ih =>
    by_cases hle : (i : Int) ≤ circleRow r i
    · obtain ⟨k, hk, hloop, hrows, hend⟩ := ih (i + 1)
      refine ⟨k + 1, by omega, ?_, fun j h1 h2 => ?_, hend.imp (by omega) fun h => ?_⟩
      · rw [circleLoop_decision, if_pos hle, List.range'_succ, List.flatMap_cons, ← hloop]
        rfl
      · rcases Nat.eq_or_lt_of_le h1 with rfl | hlt
        · exact hle
        · exact hrows j hlt (by omega)
      · rwa [Nat.add_right_comm, Nat.add_assoc] at h
    · refine ⟨0, Nat.zero_le _, circleLoop_of_lt (by omega) _ _, fun j h1 h2 => by omega, .inr ?_⟩
      rw [Nat.add_zero]
      omega

/-- With the fuel of R175 the loop ends by its own test, at an iteration that more fuel does not change. -/
theorem circleLoop_eq_of_fuel {r : Int} (hr : 0 ≤ r) :
    ∃ k : Nat, 1 ≤ k ∧ (∀ j < k, (j : Int) ≤ circleRow r j) ∧ circleRow r k < k ∧
      ∀ n : Nat, r + 1 ≤ n →
        circleLoop n 0 r (1 - r) = (List.range k).flatMap (circleIteration r) := by
  have hrun (n : Nat) (hn : r + 1 ≤ n) :
      ∃ k : Nat, (∀ j < k, (j : Int) ≤ circleRow r j) ∧ circleRow r k < k ∧
        circleLoop n 0 r (1 - r) = (List.range k).flatMap (circleIteration r) := by
    obtain ⟨k, -, hloop, hrows, hend⟩ := circleLoop_eq_iterations r n 0
    simp only [Nat.zero_add] at hrows hend
    refine ⟨k, fun j hj => hrows j (Nat.zero_le j) hj, hend.elim ?_ id, ?_⟩
    · rintro rfl
      have := circleRow_le r k
      omega
    · rw [List.range_eq_range', ← hloop, circleDecision_start]
      rfl
  obtain ⟨k, hrows, hend, -⟩ := hrun (r + 1).toNat (by omega)
  have hpos : 1 ≤ k := by
    rcases Nat.eq_zero_or_pos k with rfl | hk
    · exact absurd hend (not_lt.2 hr)
    · exact hk
  refine ⟨k, hpos, hrows, hend, fun n hn => ?_⟩
  obtain ⟨k', hrows', hend', hloop⟩ := hrun n hn
  have hk : k' = k := by
    rcases lt_trichotomy k' k with h | h | h
    · exact absurd (hrows k' h) (not_le.2 hend')
    · exact h
    · exact absurd (hrows' k h) (not_le.2 hend)
  rw [hloop, hk]

/-! ## A list of pairs, two by two -/

theorem length_flatMap_iterations (r : Int) (l : List Nat) :
    (l.flatMap (circleIteration r)).length = 2 * l.length := by
  induction l with
  | nil => rfl
  | cons j l ih =>
    simp only [List.flatMap_cons, List.length_append, ih, circleIteration, List.length_cons,
      List.length_nil]
    omega

theorem getElem?_flatMap_iterations (r : Int) (l : List Nat) (i : Nat) :
    (l.flatMap (circleIteration r))[2 * i]? =
      l[i]?.map (fun j : Nat => ((j : Int), circleRow r j)) ∧
    (l.flatMap (circleIteration r))[2 * i + 1]? =
      l[i]?.map (fun j : Nat => ((j : Int), circleRow r (j + 1))) := by
  induction l generalizing i with
  | nil => exact ⟨rfl, rfl⟩
  | cons j l ih =>
    cases i with
    | zero => exact ⟨rfl, rfl⟩
    | succ i => exact ih i

theorem exists_circlePasses_eq (r : Int) :
    ∃ k : Nat, circlePasses r = (List.range k).flatMap (circleIteration r) := by
  obtain ⟨k, -, hloop, -⟩ := circleLoop_eq_iterations r (r + 1).toNat 0
  refine ⟨k, ?_⟩
  rw [List.range_eq_range', ← hloop, circlePasses, circleDecision_start]
  rfl

/-! ## The statement -/

/-- Settles O46: the iterations of `circleLoop_eq_of_fuel`, looked up two by two. -/
theorem circlePassesAreBounded : Obligations.CirclePassesAreBounded := by
  refine ⟨fun r hr => circlePasses_of_neg hr, fun r hr => ?_, by decide⟩
  obtain ⟨k, hpos, hrows, hend, hfuel⟩ := circleLoop_eq_of_fuel hr
  have hpasses : circlePasses r = (List.range k).flatMap (circleIteration r) :=
    hfuel _ (by omega)
  have hfirst (j : Nat) (hj : j < k) :
      (circlePasses r)[2 * j]? = some ((j : Int), circleRow r j) := by
    rw [hpasses, (getElem?_flatMap_iterations r _ j).1, List.getElem?_range hj, Option.map_some]
  have hsecond (j : Nat) (hj : j < k) :
      (circlePasses r)[2 * j + 1]? = some ((j : Int), circleRow r (j + 1)) := by
    rw [hpasses, (getElem?_flatMap_iterations r _ j).2, List.getElem?_range hj, Option.map_some]
  refine ⟨hfirst 0 hpos, ⟨k, ?_, hpos, ?_, fun j hj => ?_,
    fun n hn => (hfuel n hn).trans hpasses.symm⟩, fun p hp => ?_⟩
  · rw [hpasses, length_flatMap_iterations, List.length_range]
  · have h1 := hrows (k - 1) (by omega)
    have h2 := circleRow_le r (k - 1)
    omega
  · refine ⟨circleRow r j, circleRow r (j + 1), hfirst j hj, hsecond j hj, hrows j hj, rfl,
      ⟨fun h => ?_, fun h => ?_⟩, fun h => ?_⟩
    · exact_mod_cast hrows (j + 1) h
    · rcases Nat.lt_or_eq_of_le (show j + 1 ≤ k from hj) with hlt | rfl
      · exact hlt
      · push_cast at hend
        omega
    · exact_mod_cast hfirst (j + 1) h
  · rw [hpasses, List.mem_flatMap] at hp
    obtain ⟨j, hj, hp⟩ := hp
    have hrow := hrows j (List.mem_range.1 hj)
    have hle := circleRow_le r j
    have hnext : circleRow r j - 1 ≤ circleRow r (j + 1) ∧ circleRow r (j + 1) ≤ circleRow r j :=
      nextRow_bounds r j (circleRow r j)
    simp only [circleIteration, List.mem_cons, List.not_mem_nil, or_false] at hp
    obtain rfl | rfl := hp <;> dsimp only <;> omega

end Sys2Proof.Machine
end

section
/-! The font tables that the model accepts, and the pixels and the advances of GLYPH and STRING (R190 to R197). -/

namespace Sys2Proof.Machine

open Sys2Proof.Claims

/-! ## Well-formed font tables -/

theorem length_eq_glyphCount_iff (f : Font) :
    f.glyphs.length = glyphCount f ↔
      (f.first ≤ f.last → f.glyphs.length = f.last - f.first + 1) ∧
      (f.last < f.first → f.glyphs = []) := by
  rw [glyphCount, ← List.length_eq_zero_iff]
  split <;> omega

/-- The check of the model on one glyph record: the ranges of R190, and R191 (b). -/
theorem glyph_accepted_iff (f : Font) (g : Glyph) :
    (glyphInRange g &&
        decide (g.bitmapOffset + (g.width * g.height + 7) / 8 ≤ f.bitmap.length)) = true ↔
      (g.bitmapOffset ≤ 65535 ∧ g.width ≤ 255 ∧ g.height ≤ 255 ∧ g.xAdvance ≤ 255) ∧
      (-128 ≤ g.xOffset ∧ g.xOffset ≤ 127) ∧ (-128 ≤ g.yOffset ∧ g.yOffset ≤ 127) ∧
      g.bitmapOffset + (g.width * g.height + 7) / 8 ≤ f.bitmap.length := by
  rw [Bool.and_eq_true, glyphInRange, decide_eq_true_iff, decide_eq_true_iff]
  tauto

/-- Settles O51: the check on the table's own members, then the check on each glyph. -/
theorem wellFormedFontsAreThoseOfR191 : Obligations.WellFormedFontsAreThoseOfR191 := by
  intro f
  rw [fontWellFormed, Bool.and_eq_true, decide_eq_true_iff, List.all_eq_true,
    length_eq_glyphCount_iff]
  simp only [glyph_accepted_iff]
  tauto

/-! ## The active font -/

theorem selected_mem {s : State} {f : Font} (h : selected s = some f) : f ∈ s.cfg.fonts := by
  unfold selected at h
  split at h
  · cases h
  · exact List.mem_of_getElem? h

/-- R191 (log 8): a table that is not well formed stops the model where it would be used. -/
theorem activeFont_of_malformed {s : State} {f : Font} (h : selected s = some f)
    (hf : fontWellFormed f = false) : activeFont s = .refused .malformedFont := by
  unfold selected at h
  unfold activeFont fontNone
  split at h
  · cases h
  · rename_i hne
    rw [if_neg hne, h]
    simp [hf]

theorem glyphDraw_of_malformed {s : State} (h : activeFont s = .refused .malformedFont) (x y : Int)
    (ch : Nat) (m : Mode) : glyphDraw x y ch m s = .refused .malformedFont := by
  rw [glyphDraw, h, andThen_refused]

/-- Settles O55: the first thing GLYPH does, and STRING for its first character, is to look at the active table. -/
theorem malformedFontIsRefused : Obligations.MalformedFontIsRefused := by
  intro x y ch chs m s f ha hs hf
  have hglyph := glyphDraw_of_malformed (activeFont_of_malformed hs hf)
  refine ⟨?_, ?_, exec_of_effect ha (.string rfl)⟩
  · rw [exec, execGlyph, whenAllocated_of_alloc ha, hglyph, andThen_refused]
  · rw [exec, execString, whenAllocated_of_alloc ha, stringDraw, hglyph]
    rfl

/-! ## The glyph of a code -/

theorem glyphOf_some (f : Font) (ch : Nat) :
    glyphOf (some f) ch = (fontGlyph f ch).map fun g => (f, g) := by
  rw [glyphOf, fontGlyph]
  by_cases h : f.first ≤ ch ∧ ch ≤ f.last
  · rw [if_pos h, if_neg (by omega)]
  · rw [if_neg h, if_pos (by omega)]
    rfl

theorem glyphAdvance_eq_advance (font : Option Font) (ch : Nat) :
    glyphAdvance font ch = advance (glyphOf font ch) := by
  cases font with
  | none => rfl
  | some f =>
    rw [glyphOf_some, glyphAdvance]
    cases fontGlyph f ch <;> rfl

/-- R190: an advance is one byte. -/
theorem advance_bounds {s : State} (hf : FontsWellFormed s.cfg) (ch : Nat) :
    0 ≤ advance (glyphOf (selected s) ch) ∧ advance (glyphOf (selected s) ch) ≤ 255 := by
  have hnone : (0 : Int) ≤ 0 ∧ (0 : Int) ≤ 255 := by decide
  cases hs : selected s with
  | none => exact hnone
  | some f =>
    obtain ⟨-, -, -, hglyphs⟩ :=
      (wellFormedFontsAreThoseOfR191 f).1 (hf f (selected_mem hs))
    rw [glyphOf_some, fontGlyph]
    split
    · exact hnone
    · cases hg : f.glyphs[ch - f.first]? with
      | none => exact hnone
      | some g =>
        obtain ⟨⟨-, -, -, hadvance⟩, -⟩ := hglyphs g (List.mem_of_getElem? hg)
        exact ⟨Int.natCast_nonneg _, Int.ofNat_le.2 hadvance⟩

/-! ## The pixels of a glyph -/

/-- R192: bit 7 is the first of a byte. -/
theorem glyphBit_eq_bitOfStream (f : Font) (g : Glyph) (col row : Nat) :
    glyphBit f g col row = bitOfStream f g (row * g.width + col) := by
  rw [glyphBit, bitOfStream]
  cases f.bitmap[g.bitmapOffset + (row * g.width + col) / 8]? with
  | none => rfl
  | some b =>
    have h8 : (row * g.width + col) % 8 < 8 := Nat.mod_lt _ (by decide)
    simp only [BitVec.getMsbD, h8, decide_true, Bool.true_and]

/-- The pixels of one row of a glyph (R197). -/
def glyphRow (f : Font) (g : Glyph) (x y : Int) (row : Nat) : List Pixel :=
  (List.range g.width).filterMap fun col =>
    if glyphBit f g col row then
      some (x + g.xOffset + (col : Int), y + f.yAdvance + g.yOffset + (row : Int))
    else none

theorem glyphPixels_eq (f : Font) (g : Glyph) (x y : Int) :
    glyphPixels f g x y = (List.range g.height).flatMap (glyphRow f g x y) := rfl

theorem mem_glyphRow {f : Font} {g : Glyph} {x y : Int} {row : Nat} {p : Pixel} :
    p ∈ glyphRow f g x y row ↔ ∃ col < g.width, glyphBit f g col row = true ∧
      p = (x + g.xOffset + (col : Int), y + f.yAdvance + g.yOffset + (row : Int)) := by
  simp only [glyphRow, List.mem_filterMap, List.mem_range, Option.ite_none_right_eq_some,
    Option.some.injEq, eq_comm (a := p)]

theorem nodup_glyphRow (f : Font) (g : Glyph) (x y : Int) (row : Nat) :
    (glyphRow f g x y row).Nodup := by
  refine List.nodup_range.filterMap fun i j p hi hj => ?_
  simp only [Option.mem_def, Option.ite_none_right_eq_some, Option.some.injEq] at hi hj
  obtain ⟨-, rfl⟩ := hi
  obtain ⟨-, hj⟩ := hj
  have := (Prod.mk.inj hj).1
  omega

theorem nodup_glyphPixels (f : Font) (g : Glyph) (x y : Int) : (glyphPixels f g x y).Nodup := by
  refine List.nodup_flatMap.2 ⟨fun row _ => nodup_glyphRow f g x y row,
    List.nodup_range.imp fun {i j} hij p hi hj => ?_⟩
  obtain ⟨_, -, -, hpi⟩ := mem_glyphRow.1 hi
  obtain ⟨_, -, -, hpj⟩ := mem_glyphRow.1 hj
  have := (Prod.mk.inj (hpi.symm.trans hpj)).2
  omega

/-- R197: the pixels of a glyph are its set bits, placed by its offsets. -/
theorem mem_glyphPixels {f : Font} {g : Glyph} {x y px py : Int} :
    (px, py) ∈ glyphPixels f g x y ↔
      (0 ≤ px - (x + g.xOffset) ∧ px - (x + g.xOffset) < g.width) ∧
      (0 ≤ py - (y + f.yAdvance + g.yOffset) ∧ py - (y + f.yAdvance + g.yOffset) < g.height) ∧
      streamBit f g (px - (x + g.xOffset)).toNat
        (py - (y + f.yAdvance + g.yOffset)).toNat = true := by
  simp only [glyphPixels_eq, List.mem_flatMap, List.mem_range, mem_glyphRow, Prod.mk.injEq,
    streamBit, ← glyphBit_eq_bitOfStream]
  constructor
  · rintro ⟨row, hrow, col, hcol, hbit, rfl, rfl⟩
    rw [add_sub_cancel_left, add_sub_cancel_left]
    exact ⟨⟨by omega, by omega⟩, ⟨by omega, by omega⟩, hbit⟩
  · rintro ⟨⟨hx, hx'⟩, ⟨hy, hy'⟩, hbit⟩
    exact ⟨_, by omega, _, by omega, hbit, by omega, by omega⟩

theorem count_glyphList (font : Option Font) (ch : Nat) (x y px py : Int) :
    (glyphList font ch x y).count (px, py) = glyphHits (glyphOf font ch) x y px py := by
  cases font with
  | none => rfl
  | some f =>
    rw [glyphOf_some, glyphList]
    cases fontGlyph f ch with
    | none => rfl
    | some g =>
      simp only [Option.map_some, glyphHits]
      rw [count_of_nodup (nodup_glyphPixels ..)]
      exact if_congr mem_glyphPixels rfl rfl

/-- Settles O52: GLYPH draws the list of its glyph. -/
theorem glyphWritesItsSetBits : Obligations.GlyphWritesItsSetBits := by
  intro x y ch m s hs hf
  refine draws_of_effect (fun px py => count_glyphList ..) hs (.glyph ?_)
  rw [← glyphAdvance_eq_advance]
  exact glyphDraw_eq_plotMemory hs.drawable (activeFont_eq_selected hs.1 hf) _ _ _ m

/-! ## STRING -/

theorem count_stringList (font : Option Font) (y : Int) (chs : List Word) (c px py : Int) :
    (stringList font y chs c).count (px, py) = stringHits font y chs c px py := by
  induction chs generalizing c with
  | nil => rfl
  | cons ch chs ih =>
    rw [stringList, List.count_append, count_glyphList, ih, glyphAdvance_eq_advance]
    rfl

theorem stringCursor_eq_cursorAfter (font : Option Font) (chs : List Word) (c : Int) :
    stringCursor font chs c = cursorAfter font c chs := by
  induction chs generalizing c with
  | nil => exact (Int.add_zero c).symm
  | cons ch chs ih =>
    rw [stringCursor, ih, glyphAdvance_eq_advance, cursorAfter, cursorAfter, List.map_cons,
      List.sum_cons, Int.add_assoc]
    rfl

theorem stringDraw_eq_cursorAfter {s : State} (hs : Ready s) (hf : FontsWellFormed s.cfg) (y : Int)
    (m : Mode) (chs : List Word) (c : Int) :
    stringDraw y m chs c s = .next (cursorAfter (selected s) c chs,
      { s with fb := plotMemory s true m (stringList (selected s) y chs c) s.fb }) := by
  rw [← stringCursor_eq_cursorAfter]
  exact stringDraw_eq_plotMemory hs.drawable (activeFont_eq_selected hs.1 hf) y m chs c

/-- Settles O53: STRING draws the lists of its glyphs one after the other. -/
theorem stringWritesItsGlyphs : Obligations.StringWritesItsGlyphs :=
  fun _ _ _ m _ hs hf =>
    draws_of_effect (fun _ _ => count_stringList ..) hs
      (.string (stringDraw_eq_cursorAfter hs hf _ m _ _))

/-- R196: the advances of a string together. -/
theorem sum_advances_bounds {s : State} (hf : FontsWellFormed s.cfg) (chs : List Word) :
    0 ≤ (chs.map fun ch => advance (glyphOf (selected s) ch.toNat)).sum ∧
    (chs.map fun ch => advance (glyphOf (selected s) ch.toNat)).sum ≤ 255 * chs.length := by
  induction chs with
  | nil => exact ⟨le_rfl, le_rfl⟩
  | cons ch chs ih =>
    have := advance_bounds hf ch.toNat
    rw [List.map_cons, List.sum_cons, List.length_cons]
    push_cast
    omega

theorem toInt_ofInt_of_bounds {v : Int} (hlo : -2147483648 ≤ v) (hhi : v < 2147483648) :
    (BitVec.ofInt 32 v).toInt = v := BitVec.toInt_ofInt_eq_self (by decide) hlo hhi

/-- Settles O54: 65535 advances of at most 255 after x stay far below 2^31. -/
theorem stringCursorFitsTheResponse : Obligations.StringCursorFitsTheResponse := by
  intro x y chs m s hs hf hwf
  have hlen : chs.length ≤ 65535 := by simpa using hwf
  have hsum := sum_advances_bounds hf chs
  have hx := BitVec.le_toInt x
  have hx' := BitVec.toInt_lt (x := x)
  have hcursor : (BitVec.ofInt 32 (cursorAfter (selected s) x.toInt chs)).toInt =
      x.toInt + (chs.map fun ch => advance (glyphOf (selected s) ch.toNat)).sum :=
    toInt_ofInt_of_bounds (by unfold cursorAfter; omega) (by unfold cursorAfter; omega)
  refine ⟨_, _, exec_of_effect hs.2 (.string (stringDraw_eq_cursorAfter hs hf _ m chs _)), rfl,
    hcursor, ?_, ?_⟩
  · exact hcursor ▸ (by omega)
  · exact hcursor ▸ (by omega)

/-! ## How many pixels a command writes (R268) -/

theorem length_hlinePixels (x y w : Int) : (hlinePixels x y w).length = (w + 1).toNat := by
  rw [hlinePixels, List.length_map, length_ascending, Int.sub_zero]

theorem length_vlinePixels (x y h : Int) : (vlinePixels x y h).length = (h + 1).toNat := by
  rw [vlinePixels, List.length_map, length_ascending, Int.sub_zero]

theorem length_fillrectPixels (x y w h : Int) :
    (fillrectPixels x y w h).length = (w + 1).toNat * (h + 1).toNat := by
  rw [fillrectPixels, List.length_flatMap]
  simp only [length_hlinePixels, List.map_const', List.sum_replicate, length_ascending,
    Int.sub_zero, smul_eq_mul]
  exact Nat.mul_comm _ _

theorem length_circlePixels (cx cy r : Int) :
    (circlePixels cx cy r).length = 8 * (circlePasses r).length := by
  rw [circlePixels, List.length_flatMap]
  have h8 (p : Int × Int) : (plot8 cx cy p.1 p.2).length = 8 := rfl
  simp only [h8, List.map_const', List.sum_replicate, smul_eq_mul]
  exact Nat.mul_comm _ _

theorem length_glyphRow (f : Font) (g : Glyph) (x y : Int) (row : Nat) :
    (glyphRow f g x y row).length =
      (List.range g.width).countP fun col => bitOfStream f g (g.width * row + col) := by
  rw [glyphRow, List.length_filterMap_eq_countP]
  refine List.countP_congr fun col _ => ?_
  rw [glyphBit_eq_bitOfStream, Nat.mul_comm]
  split <;> simp [*]

/-- The rows of a bitmap one after the other are the bits of its stream. -/
theorem length_glyphRows (f : Font) (g : Glyph) (x y : Int) (n : Nat) :
    ((List.range n).flatMap (glyphRow f g x y)).length =
      (List.range (g.width * n)).countP fun k => bitOfStream f g k := by
  induction n with
  | zero => rfl
  | succ n ih =>
    rw [List.range_succ, List.flatMap_append, List.length_append, ih, Nat.mul_succ, List.range_add,
      List.countP_append, List.countP_map, List.flatMap_singleton, length_glyphRow]
    rfl

/-- Settles O43, by the lengths of the lists. -/
theorem pixelWriteCounts : Obligations.PixelWriteCounts := by
  refine ⟨fun x y w h => ⟨?_, ?_, ?_, ?_, ?_⟩, fun cx cy r => ?_, fun f g x y => ?_⟩
  · rw [length_hlinePixels]
    omega
  · rw [length_vlinePixels]
    omega
  · rw [length_fillrectPixels, Int.toNat_mul (le_max_right ..) (le_max_right ..)]
    congr 1 <;> omega
  · simp only [rectPixels, List.length_append, length_hlinePixels, length_vlinePixels]
    omega
  · rw [linePixels_eq, List.length_map, List.length_range, lineSteps]
  · obtain ⟨k, hk⟩ := exists_circlePasses_eq r
    have hlen : (circlePasses r).length = 2 * k := by
      rw [hk, length_flatMap_iterations, List.length_range]
    exact ⟨k, hlen, by rw [length_circlePixels, hlen]; omega⟩
  · exact length_glyphRows f g x y g.height

end Sys2Proof.Machine
end
